-- ==== Sys2Proof/Word.lean ====
section
/-! DEFINITION. The value types of the machine (00_scope.md R5, R9): every value is an unsigned integer of a stated width. -/

namespace Sys2Proof

/-- A general register or a byte of Memory: 8 bits (00_scope.md R5). -/
abbrev Byte := BitVec 8

/-- An instruction word, the pc or a call-stack entry: 16 bits (00_scope.md R5, 10_state.md R25, R29). -/
abbrev Word := BitVec 16

/-- The address operand of CALL: 12 bits (00_scope.md R5). -/
abbrev Addr12 := BitVec 12

/-- A 4-bit field of a word: the class and the sub field (30_encoding.md R81). -/
abbrev Nibble := BitVec 4

/-- The index of a general register, 0 to 15: every value of the 4-bit field is valid (30_encoding.md R84). -/
abbrev RegIdx := BitVec 4

end Sys2Proof
end

