-- ==== Sys2Proof/Syntax.lean ====
section
/-! DEFINITION. The instruction set, closed at four instructions (00_scope.md R2, 30_encoding.md R85). -/

namespace Sys2Proof

/-- One constructor per row of the opcode table (30_encoding.md R85). -/
inductive Instr where
  /-- `HALT`, the word 0x0000 (40_sequencer_halt.md R116). -/
  | halt
  /-- `RET`, the word 0x00EE (42_call_return.md R144). -/
  | ret
  /-- `CALL nnn`, the words 0x2nnn (42_call_return.md R140). -/
  | call (nnn : Addr12)
  /-- `ADD x, y`, the words 0x8xy4 (41_add.md R130). -/
  | add (x y : RegIdx)
  deriving DecidableEq, Repr

end Sys2Proof
end

