-- ==== Sys2Proof/WellFormed.lean ====
section
/-! DEFINITION. Operand ranges (30_encoding.md R84, R94): the listing of an instruction with its operands as numerals, and
the check that each numeral fits its field. -/

namespace Sys2Proof

/-- An instruction as a listing writes it, operands as plain numbers (30_encoding.md R94). -/
inductive Listing where
  | halt
  | ret
  | call (nnn : Nat)
  | add (x y : Nat)
  deriving DecidableEq, Repr

/-- The operand ranges of R94: an absolute address 0 to 4095, register indices 0 to 15. -/
def Listing.wellFormed : Listing → Bool
  | .halt => true
  | .ret => true
  | .call nnn => decide (nnn < 4096)
  | .add x y => decide (x < 16) && decide (y < 16)

/-- The instruction a listing stands for; none where an operand is out of its range. -/
def Listing.toInstr (l : Listing) : Option Instr :=
  if l.wellFormed then
    match l with
    | .halt => some .halt
    | .ret => some .ret
    | .call nnn => some (.call (BitVec.ofNat 12 nnn))
    | .add x y => some (.add (BitVec.ofNat 4 x) (BitVec.ofNat 4 y))
  else none

/-- The listing of an instruction (30_encoding.md R94). -/
def Instr.listing : Instr → Listing
  | .halt => .halt
  | .ret => .ret
  | .call nnn => .call nnn.toNat
  | .add x y => .add x.toNat y.toNat

/-- The check on an instruction. It refuses none: every decoded operand is valid (30_encoding.md R84, R88). -/
def Instr.wellFormed (i : Instr) : Bool := i.listing.wellFormed

end Sys2Proof
end

