-- ==== Sys2Proof/Decode.lean ====
section
/-! DEFINITION. The Decoder, the dispatch on its fields, and the encoder (30_encoding.md R80 to R90). -/

namespace Sys2Proof

/-- The six fields of a word (30_encoding.md R81). -/
structure Fields where
  cls : Nibble
  x : RegIdx
  y : RegIdx
  sub : Nibble
  addr12 : Addr12
  imm8 : Byte
  deriving DecidableEq, Repr

/-- Why bytes are no instruction. -/
inductive DecodeError where
  /-- the word matches no row of the table (30_encoding.md R90) -/
  | unknownOpcode (w : Word)
  /-- fewer than two bytes: no whole word (30_encoding.md R80) -/
  | truncated
  deriving DecidableEq, Repr

/-- The Decoder: total and pure (30_encoding.md R81, R93). -/
def decodeFields (w : Word) : Fields :=
  { cls := w.extractLsb' 12 4
    x := w.extractLsb' 8 4
    y := w.extractLsb' 4 4
    sub := w.extractLsb' 0 4
    addr12 := w.extractLsb' 0 12
    imm8 := w.extractLsb' 0 8 }

/-- The dispatch on (class, x, y, sub), in the order of 40_sequencer_halt.md R110; none is the unknown-opcode arm. -/
def dispatch (f : Fields) : Option Instr :=
  if f.cls = 0x0 ∧ f.x = 0x0 ∧ f.y = 0x0 ∧ f.sub = 0x0 then some .halt
  else if f.cls = 0x8 ∧ f.sub = 0x4 then some (.add f.x f.y)
  else if f.cls = 0x0 ∧ f.x = 0x0 ∧ f.y = 0xE ∧ f.sub = 0xE then some .ret
  else if f.cls = 0x2 then some (.call f.addr12)
  else none

/-- The instruction of a word, none for the 61182 unknown words (30_encoding.md R85, R90). -/
def decodeWord (w : Word) : Option Instr := dispatch (decodeFields w)

/-- The word whose most significant byte is the first (20_memory.md R53). -/
def wordOfBytes (hi lo : Byte) : Word := hi ++ lo

/-- The byte of a word at the lower address (20_memory.md R55). -/
def highByte (w : Word) : Byte := w.extractLsb' 8 8

/-- The byte of a word at the higher address (20_memory.md R55). -/
def lowByte (w : Word) : Byte := w.extractLsb' 0 8

/-- Decoding of a byte stream: one instruction and the rest, or the reason there is none. -/
def decodeBytes : List Byte → Except DecodeError (Instr × List Byte)
  | hi :: lo :: rest =>
    match decodeWord (wordOfBytes hi lo) with
    | some i => .ok (i, rest)
    | none => .error (.unknownOpcode (wordOfBytes hi lo))
  | _ => .error .truncated

/-- The word of an instruction, written from the formats of 30_encoding.md R82 and the patterns of R85. -/
def encode : Instr → Word
  | .halt => 0x0000#16
  | .ret => 0x00EE#16
  | .call nnn => 0x2#4 ++ nnn
  | .add x y => 0x8#4 ++ x ++ y ++ 0x4#4

/-- The bytes of an instruction in memory order (20_memory.md R55). -/
def encodeBytes (i : Instr) : List Byte := [highByte (encode i), lowByte (encode i)]

/-- A row of the opcode table: a word is the row's instruction when `w &&& mask = pattern` (30_encoding.md R85). -/
structure OpcodeRow where
  mnemonic : String
  pattern : Word
  mask : Word
  deriving DecidableEq, Repr

/-- The rows of 30_encoding.md R85, as the table writes them. -/
def opcodeTable : List OpcodeRow :=
  [ { mnemonic := "HALT", pattern := 0x0000, mask := 0xFFFF },
    { mnemonic := "RET", pattern := 0x00EE, mask := 0xFFFF },
    { mnemonic := "CALL", pattern := 0x2000, mask := 0xF000 },
    { mnemonic := "ADD", pattern := 0x8004, mask := 0xF00F } ]

/-- A word is the instruction of a row (30_encoding.md R85). -/
def OpcodeRow.matches (r : OpcodeRow) (w : Word) : Bool := w &&& r.mask == r.pattern

/-- The mnemonic of an instruction (30_encoding.md R94). -/
def Instr.mnemonic : Instr → String
  | .halt => "HALT"
  | .ret => "RET"
  | .call _ => "CALL"
  | .add _ _ => "ADD"

/-- The numeric code of an instruction word for the host's table check: bits above `nbits` are 0. -/
def tableWord (nbits w : Nat) : Word := BitVec.ofNat 16 (w % 2 ^ nbits)

/-- What the decoder reads from the word `w` of `nbits` bits, laid out in memory order. -/
def decodeTableWord (nbits w : Nat) : Option Instr :=
  match decodeBytes [highByte (tableWord nbits w), lowByte (tableWord nbits w)] with
  | .ok (i, _) => some i
  | .error _ => none

end Sys2Proof
end

