-- ==== Sys2Proof/Config.lean ====
section
/-! DEFINITION. The configuration of a machine (00_scope.md R6). The spec leaves no value open, so there is no free value. -/

namespace Sys2Proof

/-- The triple (MEM_SIZE, STACK_DEPTH, START_PC), constant for the life of a machine (00_scope.md R6).
The bound of the type is the upper end of the legal range of MEM_SIZE. DESIGN CHOICE, safe: log entries 1 and 2. -/
structure Config where
  memSize : Fin 65536
  stackDepth : Nat
  startPc : Word
  deriving DecidableEq, Repr

/-- The default configuration (4096, 16, 0) (00_scope.md R6). -/
def Config.default : Config := { memSize := 4096, stackDepth := 16, startPc := 0 }

/-- The legal ranges: 2 to 65535 bytes, a depth of 1 or more, any start address (00_scope.md R6). -/
def Config.legal (c : Config) : Bool := decide (2 ≤ c.memSize.val) && decide (1 ≤ c.stackDepth)

/-- The configuration with these parameters, or none outside the legal ranges of 00_scope.md R6
(DESIGN CHOICE, safe: log entry 14). -/
def Config.ofParameters (memSize stackDepth : Nat) (startPc : Word) : Option Config :=
  if h : memSize < 65536 then
    if 2 ≤ memSize ∧ 1 ≤ stackDepth then some { memSize := ⟨memSize, h⟩, stackDepth, startPc } else none
  else none

end Sys2Proof
end

