-- ==== Sys2Proof/Machine/State.lean ====
section
/-! DEFINITION. The state of the machine (10_state.md), its reset, and the reasons a step of the model can stop. -/

namespace Sys2Proof.Machine

/-- The run status (10_state.md R32). Faulted is the spec's decision D6 (log entry 4). -/
inductive Status where
  | running
  | halted
  | faulted
  deriving DecidableEq, Repr

/-- The four faults of the machine (60_exceptions.md R160). -/
inductive FaultKind where
  | unknownOpcode
  | stackOverflow
  | stackUnderflow
  | outOfBoundsFetch
  deriving DecidableEq, Repr

/-- The fault record (10_state.md R33): the fault, the address of the instruction whose step faulted, and the word fetched
(none where no word was). -/
structure FaultRecord where
  kind : FaultKind
  addr : Word
  word : Option Word
  deriving DecidableEq, Repr

/-- Memory as a list of (address, byte) pairs with rising addresses and no byte equal to what an unlisted address reads as
(`Memory.wf`). -/
abbrev Memory := List Host.Cell

/-- The spec's State tuple (10_state.md), and the two construction arguments it is built with. -/
structure State where
  /-- MEM_SIZE (00_scope.md R6). The model's own field, constant: log entry 1. -/
  memSize : Fin 65536
  /-- STACK_DEPTH (00_scope.md R6). The model's own field, constant: log entry 1. -/
  stackDepth : Nat
  /-- the bytes of Memory (20_memory.md R50) -/
  mem : Memory
  /-- the 16 general registers; register 15 is also the carry flag (10_state.md R20, R22) -/
  regs : Vector Byte 16
  /-- the program counter (10_state.md R25) -/
  pc : Word
  /-- the call-stack slots, slot 0 first, stale ones included (10_state.md R29, R31) -/
  stack : List Word
  /-- the next free slot (10_state.md R30) -/
  sp : Nat
  /-- the run status (10_state.md R32) -/
  status : Status
  /-- the fault record, none unless Faulted (10_state.md R33) -/
  fault : Option FaultRecord
  deriving DecidableEq, Repr

/-- Why a step of the MODEL stops. The machine's own faults are next states (60_exceptions.md R165, log entry 4). -/
inductive Fault where
  /-- Raised by CALL or RET in a state whose stack list lacks the slot that `sp` names, against 10_state.md R29 and R30.
  Safe: no run reaches such a state (DESIGN CHOICE, log entry 5). -/
  | noStackSlot
  deriving DecidableEq, Repr

/-- Why the model refuses. -/
inductive Refusal where
  /-- Raised by an arm of exec whose instruction has no meaning yet. Safe. No arm raises it. -/
  | notModelled (mnemonic : String)
  /-- Raised by the host's Reset with a size or depth outside 00_scope.md R6. Safe (log entry 14). -/
  | illegalConfiguration
  /-- Raised by the host's LoadBytes that would touch an address at or beyond MEM_SIZE (70_reset_and_hazards.md R205).
  Safe (log entry 15). -/
  | loadOutsideMemory
  /-- Raised by a host transaction outside the phase that allows it (70_reset_and_hazards.md R204, R211). Safe
  (log entry 15). -/
  | outOfPhase
  deriving DecidableEq, Repr

/-- The machine right after construction, before the host sets anything (10_state.md R36, 70_reset_and_hazards.md R200),
with the pc at the configuration's START_PC (0 unless the host sets another, R207). -/
def State.construct (c : Config) : State :=
  { memSize := c.memSize
    stackDepth := c.stackDepth
    mem := []
    regs := Vector.replicate 16 0x00
    pc := c.startPc
    stack := List.replicate c.stackDepth 0x0000
    sp := 0
    status := .running
    fault := none }

/-- The machine of the default configuration right after reset (10_state.md R36, 00_scope.md R6; log entry 13). -/
def State.reset : State := State.construct Config.default

end Sys2Proof.Machine
end

