-- ==== Sys2Proof/Machine/Ops.lean ====
section
/-! DEFINITION. The named operations on memory, registers, the pc and the call stack, the instruction fetch, and taking a
fault (10_state.md R38, 20_memory.md R53 and R54, 60_exceptions.md R165). -/

namespace Sys2Proof.Machine

/-! ### Memory -/

/-- What an unlisted address reads as: the reset contents (10_state.md R36). -/
def Memory.unlistedByte : Byte := 0x00

/-- The addresses rise strictly from `lo` on and no entry is the unlisted byte. -/
def Memory.risingFrom (lo : Nat) : Memory → Bool
  | [] => true
  | (a, b) :: m => decide (lo ≤ a) && decide (b ≠ Memory.unlistedByte) && Memory.risingFrom (a + 1) m

/-- The one canonical form of a memory. -/
def Memory.wf (m : Memory) : Bool := Memory.risingFrom 0 m

/-- The byte stored at an address. -/
def Memory.read : Memory → Nat → Byte
  | [], _ => Memory.unlistedByte
  | (a, b) :: m, k => if a = k then b else Memory.read m k

/-- Store a byte, keeping the canonical form. -/
def Memory.write : Memory → Nat → Byte → Memory
  | [], k, v => if v = Memory.unlistedByte then [] else [(k, v)]
  | (a, b) :: m, k, v =>
    if k < a then (if v = Memory.unlistedByte then (a, b) :: m else (k, v) :: (a, b) :: m)
    else if k = a then (if v = Memory.unlistedByte then m else (k, v) :: m)
    else (a, b) :: Memory.write m k v

/-- `MemRead(a, 1)`: defined only below MEM_SIZE (00_scope.md R10). -/
def State.readByte (s : State) (a : Nat) : Option Byte :=
  if a < s.memSize.val then some (s.mem.read a) else none

/-- `MemWrite(a, 1, v)`, the host's only (20_memory.md R58): defined only below MEM_SIZE (00_scope.md R10), so it stores
nothing elsewhere. -/
def State.writeByte (s : State) (a : Nat) (v : Byte) : State :=
  { s with mem := if a < s.memSize.val then s.mem.write a v else s.mem }

/-- Consecutive bytes from an address on (70_reset_and_hazards.md R205). -/
def State.writeBytes (s : State) (a : Nat) : List Byte → State
  | [] => s
  | b :: bs => State.writeBytes (s.writeByte a b) (a + 1) bs

/-- A word in memory, most significant byte at the lower address (20_memory.md R55). -/
def storeWord (s : State) (a : Nat) (w : Word) : State :=
  (s.writeByte a (highByte w)).writeByte (a + 1) (lowByte w)

/-! ### The fetch -/

/-- `MemRead(a, 2)` with the bounds check of 20_memory.md R54: none where the two bytes are not both inside memory.
No alignment is required (20_memory.md R56, log entry 10). -/
def fetchAt (s : State) (a : Word) : Option Word :=
  if a.toNat + 2 ≤ s.memSize.val then
    some (wordOfBytes (s.mem.read a.toNat) (s.mem.read (a.toNat + 1)))
  else none

/-- The fetch of a step (40_sequencer_halt.md R111). -/
def fetch (s : State) : Option Word := fetchAt s s.pc

/-! ### Registers and the pc -/

/-- `x[i]` (10_state.md R20). -/
def State.reg (s : State) (i : RegIdx) : Byte := s.regs[i.toNat]'i.isLt

/-- `x[i] <- v` (10_state.md R20). -/
def State.setReg (s : State) (i : RegIdx) (v : Byte) : State := { s with regs := s.regs.set i.toNat v i.isLt }

/-- `pc <- t` (00_scope.md R10). -/
def State.setPc (s : State) (t : Word) : State := { s with pc := t }

/-- Step 2 of the protocol: `pc <- pc + 2` (40_sequencer_halt.md R112). -/
def State.advance (s : State) : State := s.setPc (s.pc + 2)

/-- `status <- v` (00_scope.md R10). -/
def State.setStatus (s : State) (v : Status) : State := { s with status := v }

/-! ### The call stack -/

/-- `stack[i]`, stale slots included; none at or beyond the depth (10_state.md R29, R31). -/
def State.readSlot (s : State) (i : Nat) : Option Word := s.stack[i]?

/-- push without the overflow check, which the caller makes (10_state.md R38): `stack[sp] <- v; sp <- sp + 1`. -/
def pushSlot (s : State) (v : Word) : Option State :=
  if s.sp < s.stack.length then some { s with stack := s.stack.set s.sp v, sp := s.sp + 1 } else none

/-- pop without the underflow check, which the caller makes (10_state.md R38): `sp <- sp - 1`, result `stack[sp]`; the slot
keeps its value (10_state.md R31, log entry 11). -/
def popSlot (s : State) : Option (Word × State) :=
  match s.sp with
  | 0 => none
  | n + 1 =>
    match s.stack[n]? with
    | some v => some (v, { s with sp := n })
    | none => none

/-! ### Taking a fault. There is no return from one (60_exceptions.md R168), so no operation stands beside it. -/

/-- The code of a fault (60_exceptions.md R160, the spec's decision D7); no fault is 0. -/
def FaultKind.code : FaultKind → Nat
  | .unknownOpcode => 1
  | .stackOverflow => 2
  | .stackUnderflow => 3
  | .outOfBoundsFetch => 4

/-- The code of a fault record (60_exceptions.md R160). -/
def faultCode : Option FaultRecord → Nat
  | none => 0
  | some r => r.kind.code

/-- `raise F(addr, word)`: `status <- Faulted`, the record is written, nothing else changes (60_exceptions.md R165). -/
def takeFault (s : State) (kind : FaultKind) (addr : Word) (word : Option Word) : State :=
  { s with status := .faulted, fault := some { kind, addr, word } }

/-- The default arm of the dispatch: the advance stands and UnknownOpcode is raised (60_exceptions.md R161; the pc is the
spec's decision D8, log entry 8). -/
def unknownOpcode (s : State) (w : Word) : State := takeFault s.advance .unknownOpcode s.pc (some w)

/-- A failed fetch: no advance, no word (60_exceptions.md R164). -/
def outOfBoundsFetch (s : State) : State := takeFault s .outOfBoundsFetch s.pc none

/-- A step in a terminal status changes nothing and fetches nothing (40_sequencer_halt.md R118; the identity is one of the
two choices R118 gives, DESIGN CHOICE, log entry 3). -/
def terminalStep (s : State) : State := s

end Sys2Proof.Machine
end

