-- ==== Sys2Proof/Machine/Operands.lean ====
section
/-! DEFINITION. The operand forms (30_encoding.md R83): a register index is used as it stands, the address operand is
zero-extended. There are no other forms. -/

namespace Sys2Proof.Machine

/-- The register that is also the carry flag (00_scope.md R5, 10_state.md R22). -/
def flagReg : RegIdx := 0xF

/-- The value of a register operand (30_encoding.md R83 (b)). -/
def registerOperand (s : State) (i : RegIdx) : Byte := s.reg i

/-- `zext_16(addr12)`: absolute, not scaled, not relative to the pc (30_encoding.md R83 (a)). -/
def callTarget (nnn : Addr12) : Word := nnn.setWidth 16

end Sys2Proof.Machine
end

