-- ==== Sys2Proof/Machine/Flags.lean ====
section
/-! DEFINITION. The arithmetic law of ADD (41_add.md R131): the exact sum, the byte it leaves and the carry. -/

namespace Sys2Proof.Machine

/-- The exact sum, 0 to 510 (41_add.md R130). There is no carry in (41_add.md R131). -/
def exactSum (a b : Byte) : Nat := a.toNat + b.toNat

/-- `sum mod 256` (41_add.md R130). -/
def sumByte (a b : Byte) : Byte := BitVec.ofNat 8 (exactSum a b % 256)

/-- The flag: 1 if the sum exceeds 255, else 0 (41_add.md R130); the unsigned carry, never the signed overflow (R131). -/
def carryByte (a b : Byte) : Byte := if 255 < exactSum a b then 1 else 0

end Sys2Proof.Machine
end

