-- ==== Sys2Proof/Machine/Arith.lean ====
section
/-! DEFINITION. The meaning of ADD (41_add.md R130). A meaning takes the state whose pc is the address of its instruction
(log entry 12). -/

namespace Sys2Proof.Machine

/-- ADD x,y: both sources are read before either write; the sum is written first and the flag last, so with x = 15 the flag
stays (41_add.md R130, R133; the order is the spec's decision D10, log entry 9). -/
def execAdd (x y : RegIdx) (s : State) : Host.Outcome State Fault Refusal :=
  let a1 := registerOperand s x
  let a2 := registerOperand s y
  .next ((s.advance.setReg x (sumByte a1 a2)).setReg flagReg (carryByte a1 a2))

end Sys2Proof.Machine
end

