-- ==== Sys2Proof/Machine/Control.lean ====
section
/-! DEFINITION. The meaning of HALT (40_sequencer_halt.md R116), the machine's only system-type instruction (R119). A
meaning takes the state whose pc is the address of its instruction (log entry 12). -/

namespace Sys2Proof.Machine

/-- HALT: the advance, then `status <- Halted` (40_sequencer_halt.md R116). -/
def execHalt (s : State) : Host.Outcome State Fault Refusal := .next (s.advance.setStatus .halted)

end Sys2Proof.Machine
end

