-- ==== Sys2Proof/Machine/Transfer.lean ====
section
/-! DEFINITION. The meanings of CALL and RET (42_call_return.md R140, R144). A meaning takes the state whose pc is the
address of its instruction (log entry 12). -/

namespace Sys2Proof.Machine

/-- CALL nnn: the overflow check, then the push of the advanced pc, then the jump; the target is not checked
(42_call_return.md R140, R141). -/
def execCall (nnn : Addr12) (s : State) : Host.Outcome State Fault Refusal :=
  if s.sp = s.stackDepth then
    .next (takeFault s.advance .stackOverflow s.pc (some (encode (.call nnn))))
  else
    match pushSlot s.advance s.advance.pc with
    | some t => .next (t.setPc (callTarget nnn))
    | none => .fault .noStackSlot

/-- RET: the underflow check, then the pop, then the jump; the popped address is not checked
(42_call_return.md R144, R145). -/
def execRet (s : State) : Host.Outcome State Fault Refusal :=
  if s.sp = 0 then
    .next (takeFault s.advance .stackUnderflow s.pc (some (encode .ret)))
  else
    match popSlot s.advance with
    | some (v, t) => .next (t.setPc v)
    | none => .fault .noStackSlot

end Sys2Proof.Machine
end

