-- ==== Sys2Proof/Machine/Step.lean ====
section
/-! DEFINITION. The step of the Executor (40_sequencer_halt.md R110). -/

namespace Sys2Proof.Machine

/-- One step: fetch with its bounds check, decode, and the instruction's meaning, which makes the advance; an unknown word
and a failed fetch take their faults. In a terminal status nothing happens (R118, log entry 3). -/
def step (s : State) : Host.Outcome State Fault Refusal :=
  match s.status with
  | .running =>
    match fetch s with
    | none => .next (outOfBoundsFetch s)
    | some w =>
      match decodeWord w with
      | some i => exec i s
      | none => .next (unknownOpcode s w)
  | .halted => .next (terminalStep s)
  | .faulted => .next (terminalStep s)

/-- `s` with the word `w` of `nbits` bits stored where the next step fetches: the load of one instruction by the host
(70_reset_and_hazards.md R205, log entry 6). -/
def State.withFetchWord (s : State) (nbits w : Nat) : State := storeWord s s.pc.toNat (tableWord nbits w)

end Sys2Proof.Machine
end

