-- ==== Sys2Proof/Machine/Session.lean ====
section
/-! DEFINITION. The host's protocol (70_reset_and_hazards.md R203 to R211): the phases and the transactions, beside the
machine. Run is the relation `Session.RunsTo` of Safety.lean, since no step limit belongs to the machine (R117). The
read-backs of R210 are State.reg, State.readByte, State.readSlot and the fields pc, sp, status and fault (log entry 16). -/

namespace Sys2Proof.Machine

/-- The phases of a machine's life (70_reset_and_hazards.md R203). -/
inductive Phase where
  | loading
  | running
  | terminal
  deriving DecidableEq, Repr

/-- A machine and the phase its host is in: the phase is no register of the machine (70_reset_and_hazards.md R203, log
entry 7). -/
structure Session where
  machine : State
  phase : Phase
  deriving DecidableEq, Repr

/-- The host's transactions that change something, Run apart (70_reset_and_hazards.md R204). -/
inductive Transaction where
  | reset (memSize stackDepth : Nat)
  | loadBytes (offset : Nat) (bytes : List Byte)
  | setReg (i : RegIdx) (v : Byte)
  | setStart (a : Word)
  | step
  deriving DecidableEq, Repr

/-- The phase a step leaves: terminal as soon as the status is no longer Running (70_reset_and_hazards.md R203). -/
def phaseAfterStep (s : State) : Phase :=
  match s.status with
  | .running => .running
  | .halted => .terminal
  | .faulted => .terminal

/-- Reset in any phase (70_reset_and_hazards.md R200): a new zeroed machine; an illegal size or depth is refused (log
entry 14). -/
def hostReset (memSize stackDepth : Nat) : Host.Outcome Session Fault Refusal :=
  match Config.ofParameters memSize stackDepth 0 with
  | some c => .next { machine := State.construct c, phase := .loading }
  | none => .refused .illegalConfiguration

/-- LoadBytes: refused whole unless all of it lies inside memory (70_reset_and_hazards.md R205). -/
def hostLoadBytes (offset : Nat) (bytes : List Byte) (c : Session) : Host.Outcome Session Fault Refusal :=
  match c.phase with
  | .loading =>
    if offset + bytes.length ≤ c.machine.memSize.val then
      .next { c with machine := c.machine.writeBytes offset bytes }
    else .refused .loadOutsideMemory
  | .running => .refused .outOfPhase
  | .terminal => .refused .outOfPhase

/-- SetReg (70_reset_and_hazards.md R206). -/
def hostSetReg (i : RegIdx) (v : Byte) (c : Session) : Host.Outcome Session Fault Refusal :=
  match c.phase with
  | .loading => .next { c with machine := c.machine.setReg i v }
  | .running => .refused .outOfPhase
  | .terminal => .refused .outOfPhase

/-- SetStart: any 16-bit address (70_reset_and_hazards.md R207). -/
def hostSetStart (a : Word) (c : Session) : Host.Outcome Session Fault Refusal :=
  match c.phase with
  | .loading => .next { c with machine := c.machine.setPc a }
  | .running => .refused .outOfPhase
  | .terminal => .refused .outOfPhase

/-- Step, between whole steps; a terminal machine cannot be resumed (70_reset_and_hazards.md R209, R211). -/
def hostStep (c : Session) : Host.Outcome Session Fault Refusal :=
  match c.phase with
  | .terminal => .refused .outOfPhase
  | .loading | .running =>
    match step c.machine with
    | .next t => .next { machine := t, phase := phaseAfterStep t }
    | .fault r => .fault r
    | .refused r => .refused r

/-- One transaction of the host (70_reset_and_hazards.md R204). -/
def Session.apply (t : Transaction) (c : Session) : Host.Outcome Session Fault Refusal :=
  match t with
  | .reset memSize stackDepth => hostReset memSize stackDepth
  | .loadBytes offset bytes => hostLoadBytes offset bytes c
  | .setReg i v => hostSetReg i v c
  | .setStart a => hostSetStart a c
  | .step => hostStep c

end Sys2Proof.Machine
end

