-- ==== Sys2Proof/Safety.lean ====
section
/-! DEFINITION. What the statements speak of: invariants of the state, launch states, runs and their ends, and sequences of
instructions. -/

namespace Sys2Proof.Machine

/-! ### Invariants -/

/-- The shape every reachable state has: canonical memory inside MEM_SIZE (20_memory.md R50), STACK_DEPTH slots
(10_state.md R29), sp in its range (R30), and a fault record exactly in the status Faulted (R33). -/
structure State.Wf (s : State) : Prop where
  memory_canonical : s.mem.wf = true
  memory_inside : ∀ c ∈ s.mem, c.1 < s.memSize.val
  stack_length : s.stack.length = s.stackDepth
  sp_le_depth : s.sp ≤ s.stackDepth
  fault_iff_faulted : s.fault.isSome = true ↔ s.status = .faulted

/-- The pc and the live return addresses lie in the ranges of 10_state.md R27 and R31 (a), for a run that started at
`start`. -/
def State.AddressesBounded (start : Word) (s : State) : Prop :=
  s.pc.toNat ≤ max s.memSize.val (max 4095 start.toNat) ∧
  ∀ i v, i < s.sp → s.readSlot i = some v → v.toNat ≤ s.memSize.val

/-- Every live slot holds the address right after a CALL word in memory (10_state.md R31 (a)). -/
def State.ReturnsFollowCalls (s : State) : Prop :=
  ∀ i v, i < s.sp → s.readSlot i = some v →
    ∃ a w nnn, v = a + 2 ∧ fetchAt s a = some w ∧ decodeWord w = some (.call nnn)

/-- A fault record agrees with the state it is found in (60_exceptions.md R161 to R164, R166): the word is what memory holds
at the recorded address, and the pc and sp are what the fault left. -/
def State.FaultRecordAgrees (s : State) : Prop :=
  ∀ r, s.fault = some r →
    r.word = fetchAt s r.addr ∧
    match r.kind with
    | .unknownOpcode => s.pc = r.addr + 2 ∧ ∃ w, r.word = some w ∧ decodeWord w = none
    | .stackOverflow =>
      s.pc = r.addr + 2 ∧ s.sp = s.stackDepth ∧ ∃ w nnn, r.word = some w ∧ decodeWord w = some (.call nnn)
    | .stackUnderflow => s.pc = r.addr + 2 ∧ s.sp = 0 ∧ r.word = some 0x00EE
    | .outOfBoundsFetch => s.pc = r.addr ∧ s.memSize.val < r.addr.toNat + 2 ∧ r.word = none

/-- Two states that differ at most in the general registers. -/
def State.SameButRegs (s t : State) : Prop := { s with regs := t.regs } = t

/-! ### Launch states and runs -/

/-- The premises of a launch state (70_reset_and_hazards.md R208); the registers, the bytes of memory and the pc are
arbitrary. -/
structure State.Launch (s : State) : Prop where
  running : s.status = .running
  no_fault : s.fault = none
  sp_zero : s.sp = 0
  stack_zero : s.stack = List.replicate s.stackDepth 0x0000
  memory_canonical : s.mem.wf = true
  memory_inside : ∀ c ∈ s.mem, c.1 < s.memSize.val

/-- `t` is reached from `s` by whole steps (40_sequencer_halt.md R117). -/
def Reaches (s t : State) : Prop := ∃ n, Sys2Proof.core.run n s = .next t

/-- The run from `s` ends in `t` (70_reset_and_hazards.md R209, R213). -/
def RunEndsIn (s t : State) : Prop := Reaches s t ∧ t.status ≠ .running

/-- A run ended well: the status is Halted (60_exceptions.md R171). -/
def EndedWell (t : State) : Prop := t.status = .halted

/-- The Run transaction: from LOADING to TERMINAL, steps until the status is not Running (70_reset_and_hazards.md R204,
R209). -/
def Session.RunsTo (c d : Session) : Prop :=
  c.phase = .loading ∧ d.phase = .terminal ∧ RunEndsIn c.machine d.machine

/-- Transactions in order, each of them accepted. -/
inductive Session.AppliesTo : List Transaction → Session → Session → Prop where
  | nil (c : Session) : Session.AppliesTo [] c c
  | cons {t : Transaction} {ts : List Transaction} {c d e : Session} :
      c.apply t = .next d → Session.AppliesTo ts d e → Session.AppliesTo (t :: ts) c e

/-- The spec's bound on the steps of a run, B + B^2 + ... + B^(STACK_DEPTH+1) with B = MEM_SIZE div 2 + 1
(70_reset_and_hazards.md R221); no part of the machine. -/
def runBound (s : State) : Nat :=
  ((List.range (s.stackDepth + 1)).map fun k => (s.memSize.val / 2 + 1) ^ (k + 1)).sum

/-! ### Sequences of instructions -/

/-- The instructions of a list, executed one after another. -/
def execAll : List Instr → State → Host.Outcome State Fault Refusal
  | [], s => .next s
  | i :: is, s =>
    match exec i s with
    | .next t => execAll is t
    | .fault r => .fault r
    | .refused r => .refused r

/-- Code whose CALLs and RETs match: a row of ADDs and of calls with their bodies (42_call_return.md R147). -/
inductive Matched where
  | done
  | add (x y : RegIdx) (rest : Matched)
  | call (nnn : Addr12) (body rest : Matched)
  deriving DecidableEq, Repr

/-- The instructions of matched code in the order they execute. -/
def Matched.instrs : Matched → List Instr
  | .done => []
  | .add x y rest => .add x y :: rest.instrs
  | .call nnn body rest => .call nnn :: (body.instrs ++ .ret :: rest.instrs)

/-- How deep the calls nest. -/
def Matched.depth : Matched → Nat
  | .done => 0
  | .add _ _ rest => rest.depth
  | .call _ body rest => max (body.depth + 1) rest.depth

/-- How many instructions stand at the outermost level, matching RETs not counted. -/
def Matched.width : Matched → Nat
  | .done => 0
  | .add _ _ rest => rest.width + 1
  | .call _ _ rest => rest.width + 1

end Sys2Proof.Machine
end

