-- ==== Sys2Proof/Certificates/Slice0/Obligations.lean ====
section
/-! DEFINITION. The statements about the model, in the order of the spec's files. Where a statement rests on a decision of
the spec's own (D<n> of 92_eei_decisions.md) or on a choice of the model, its docstring names the log entry. -/

open Sys2Proof Sys2Proof.Machine

/-! ### Encoding (30_encoding.md) -/

/-- 30_encoding.md R81: the six fields as arithmetic on the word. -/
def Obligations.FieldsAreTheirBitRanges : Prop :=
  ∀ w : Word,
    (decodeFields w).cls.toNat = w.toNat / 4096 ∧
    (decodeFields w).x.toNat = w.toNat / 256 % 16 ∧
    (decodeFields w).y.toNat = w.toNat / 16 % 16 ∧
    (decodeFields w).sub.toNat = w.toNat % 16 ∧
    (decodeFields w).addr12.toNat = w.toNat % 4096 ∧
    (decodeFields w).imm8.toNat = w.toNat % 256 ∧
    (decodeFields w).addr12.toNat =
      (decodeFields w).x.toNat * 256 + (decodeFields w).y.toNat * 16 + (decodeFields w).sub.toNat ∧
    (decodeFields w).imm8.toNat = (decodeFields w).y.toNat * 16 + (decodeFields w).sub.toNat

/-- 30_encoding.md R85, R90: which words are which instruction, with which operands, and which are unknown; no word matches
two rows. -/
def Obligations.DecoderFollowsTheOpcodeTable : Prop :=
  ∀ w : Word,
    (decodeWord w = some .halt ↔ w = 0x0000) ∧
    (decodeWord w = some .ret ↔ w = 0x00EE) ∧
    (∀ nnn, decodeWord w = some (.call nnn) ↔ w &&& 0xF000 = 0x2000 ∧ nnn.toNat = w.toNat % 4096) ∧
    (∀ x y, decodeWord w = some (.add x y) ↔
      w &&& 0xF00F = 0x8004 ∧ x.toNat = w.toNat / 256 % 16 ∧ y.toNat = w.toNat / 16 % 16) ∧
    (decodeWord w = none ↔ ∀ r ∈ opcodeTable, r.matches w = false) ∧
    opcodeTable.Pairwise fun r q => r.matches w = true → q.matches w = false

/-- 30_encoding.md R87, R88, R89: the words of RET, CALL and ADD as arithmetic on the word, and their bytes in memory order;
beside them HALT's (R86). -/
def Obligations.InstructionWordsAndBytes : Prop :=
  (∀ w : Word,
    (decodeWord w = some .halt ↔ w.toNat = 0x0000) ∧
    (decodeWord w = some .ret ↔ w.toNat = 0x00EE) ∧
    (∀ nnn, decodeWord w = some (.call nnn) ↔ w.toNat = 0x2000 + nnn.toNat) ∧
    (∀ x y, decodeWord w = some (.add x y) ↔ w.toNat = 0x8004 + x.toNat * 256 + y.toNat * 16)) ∧
  encodeBytes .halt = [0x00, 0x00] ∧
  encodeBytes .ret = [0x00, 0xEE] ∧
  (∀ nnn, ∃ hi lo, encodeBytes (.call nnn) = [hi, lo] ∧ hi.toNat = 0x20 + nnn.toNat / 256 ∧ lo.toNat = nnn.toNat % 256) ∧
  (∀ x y, ∃ hi lo, encodeBytes (.add x y) = [hi, lo] ∧ hi.toNat = 0x80 + x.toNat ∧ lo.toNat = y.toNat * 16 + 4)

/-- 30_encoding.md R84, R85: decoding an encoded instruction gives it back, with every operand at every value, from its word
and from its bytes in memory order. -/
def Obligations.DecodeEncodeRoundTrip : Prop :=
  ∀ (i : Instr) (rest : List Byte),
    i.wellFormed = true ∧ decodeWord (encode i) = some i ∧
    decodeBytes (encodeBytes i ++ rest) = .ok (i, rest)

/-- 30_encoding.md R85: an instruction has one word, so encoding a decoded word gives the word back. -/
def Obligations.EncodeDecodeRoundTrip : Prop :=
  ∀ (w : Word) (i : Instr), decodeWord w = some i → encode i = w

/-- 95_test_vectors.md sections 3.1 and 3.2: words the spec writes out. -/
def Obligations.SpecWordsDecode : Prop :=
  decodeWord 0x0000 = some .halt ∧ decodeWord 0x00EE = some .ret ∧
  decodeWord 0x2100 = some (.call 0x100) ∧ decodeWord 0x2FFF = some (.call 0xFFF) ∧
  decodeWord 0x8014 = some (.add 0 1) ∧ decodeWord 0x8AB4 = some (.add 10 11) ∧
  decodeWord 0x1234 = none ∧ decodeWord 0x01EE = none ∧ decodeWord 0x8015 = none ∧ decodeWord 0x9014 = none

/-! ### Memory and the fetch (20_memory.md) -/

/-- 20_memory.md R53: the fetched word is the byte at the address times 256 plus the byte after it. -/
def Obligations.FetchIsBigEndian : Prop :=
  ∀ (s : State) (a : Word), a.toNat + 2 ≤ s.memSize.val →
    ∃ w hi lo, fetchAt s a = some w ∧ s.readByte a.toNat = some hi ∧ s.readByte (a.toNat + 1) = some lo ∧
      w.toNat = hi.toNat * 256 + lo.toNat

/-- 20_memory.md R54, 60_exceptions.md R164: a fetch out of bounds faults, with no advance and no word, and changes nothing
else. The record and the status are the spec's decision D6 (log entry 4). -/
def Obligations.OutOfBoundsFetchFaults : Prop :=
  ∀ s : State, s.status = .running → s.memSize.val < s.pc.toNat + 2 →
    step s = .next { s with
      status := .faulted, fault := some { kind := .outOfBoundsFetch, addr := s.pc, word := none } }

/-- 20_memory.md R58: memory is constant along every run. -/
def Obligations.RunsKeepMemory : Prop :=
  ∀ (s t : State) (a : Nat), Reaches s t → t.readByte a = s.readByte a

/-! ### The step (40_sequencer_halt.md) -/

/-- 40_sequencer_halt.md R110: a step is the meaning of the word the pc points at; the meaning makes the advance (log
entry 12). -/
def Obligations.StepRunsTheDecodedInstruction : Prop :=
  ∀ s : State, s.status = .running →
    (∀ w i, fetch s = some w → decodeWord w = some i → step s = exec i s) ∧
    (∀ i, fetch s = some (encode i) → step s = exec i s)

/-- 60_exceptions.md R161: an unknown word faults after the advance and changes nothing else. The record and the status are
the spec's decision D6 (log entry 4), the pc its decision D8 (log entry 8). -/
def Obligations.UnknownWordFaults : Prop :=
  ∀ (s : State) (w : Word), s.status = .running → fetch s = some w → decodeWord w = none →
    step s = .next { s with
      pc := s.pc + 2, status := .faulted,
      fault := some { kind := .unknownOpcode, addr := s.pc, word := some w } }

/-- 40_sequencer_halt.md R118: no step changes a terminal state. That the step answers the state itself is the model's choice
among the two R118 gives (log entry 3). -/
def Obligations.TerminalStatesStay : Prop :=
  ∀ s : State, s.status ≠ .running → step s = .next s ∧ ∀ n, Sys2Proof.core.run n s = .next s

/-- 40_sequencer_halt.md R115: the outcomes of a step from a Running state, row by row; the conditions cover every such
state. The name of a fault in the record is the spec's decision D6 (log entry 4). -/
def Obligations.StepOutcomesFollowTheTable : Prop :=
  ∀ s : State, s.Wf → s.status = .running →
    ∃ t, step s = .next t ∧
      (s.memSize.val < s.pc.toNat + 2 → t.status = .faulted ∧ t.fault.map (·.kind) = some .outOfBoundsFetch) ∧
      (s.pc.toNat + 2 ≤ s.memSize.val → ∃ w, fetch s = some w ∧
        (w = 0x0000 → t.status = .halted ∧ t.fault = none) ∧
        (w &&& 0xF00F = 0x8004 → t.status = .running ∧ t.fault = none) ∧
        (w &&& 0xF000 = 0x2000 → s.sp < s.stackDepth → t.status = .running ∧ t.fault = none) ∧
        (w &&& 0xF000 = 0x2000 → s.sp = s.stackDepth →
          t.status = .faulted ∧ t.fault.map (·.kind) = some .stackOverflow) ∧
        (w = 0x00EE → 0 < s.sp → t.status = .running ∧ t.fault = none) ∧
        (w = 0x00EE → s.sp = 0 → t.status = .faulted ∧ t.fault.map (·.kind) = some .stackUnderflow) ∧
        ((∀ r ∈ opcodeTable, r.matches w = false) →
          t.status = .faulted ∧ t.fault.map (·.kind) = some .unknownOpcode))

/-- 40_sequencer_halt.md R116: HALT's word, and its effect in every state: the advance and the status, nothing else. -/
def Obligations.HaltStops : Prop :=
  decodeWord 0x0000 = some .halt ∧ encode .halt = 0x0000 ∧
  ∀ s : State, exec .halt s = .next { s with pc := s.pc + 2, status := .halted }

/-- 10_state.md R32, 70_reset_and_hazards.md R213: a run ends in Halted exactly by executing the word 0x0000. -/
def Obligations.OnlyTheHaltWordHalts : Prop :=
  ∀ s t : State, s.status = .running → step s = .next t → (t.status = .halted ↔ fetch s = some 0x0000)

/-- 70_reset_and_hazards.md R221 (derived by the spec): from every state of the right shape the run ends, within the spec's
bound on its steps. -/
def Obligations.EveryRunEndsWithinTheBound : Prop :=
  ∀ s : State, s.Wf → ∃ n t, n ≤ runBound s ∧ Sys2Proof.core.run n s = .next t ∧ t.status ≠ .running

/-- The Run transaction on a launch state has exactly one end. That there is no second end is 70_reset_and_hazards.md R209 with
00_scope.md R12 item 6; that an end exists is the spec's own derivation of termination, 70_reset_and_hazards.md R221 (the
source says no more than that a run need not end: 40_sequencer_halt.md R117, 91_not_in_source.md N29). The phases are the
spec's decision D14 (log entry 7). -/
def Obligations.RunTransactionHasOneEnd : Prop :=
  ∀ c : Session, c.phase = .loading → c.machine.Launch →
    ∃ d, c.RunsTo d ∧ ∀ e, c.RunsTo e → e = d

/-- 60_exceptions.md R171, 70_reset_and_hazards.md R213: a run from a launch state ends well, with no fault record and the pc
right after a HALT word, or Faulted, with a record that names the word and its address. The record is the spec's decision D6
(log entry 4). -/
def Obligations.RunsEndWellOrWithARecord : Prop :=
  ∀ s t : State, s.Launch → RunEndsIn s t →
    t.sp ≤ t.stackDepth ∧
    ((EndedWell t ∧ t.fault = none ∧ ∃ a, t.pc = a + 2 ∧ fetchAt t a = some 0x0000) ∨
      (t.status = .faulted ∧ ∃ r, t.fault = some r ∧ r.word = fetchAt t r.addr))

/-! ### ADD (41_add.md) -/

/-- 41_add.md R130: ADD answers a next state for every pair of registers in every state, with its results and its frame. For
x = 15 the flag in register 15 is the spec's decision D10 (log entry 9). -/
def Obligations.AddCompletesWithItsFrame : Prop :=
  ∀ (x y : RegIdx) (s : State), ∃ t,
    exec (.add x y) s = .next t ∧
    (x ≠ 15 → (t.reg x).toNat = ((s.reg x).toNat + (s.reg y).toNat) % 256) ∧
    (t.reg 15).toNat = (if 255 < (s.reg x).toNat + (s.reg y).toNat then 1 else 0) ∧
    (∀ r, r ≠ x → r ≠ 15 → t.reg r = s.reg r) ∧
    t.pc = s.pc + 2 ∧
    (∀ a, t.readByte a = s.readByte a) ∧
    (∀ k, t.readSlot k = s.readSlot k) ∧
    { t with pc := s.pc, regs := s.regs } = s

/-- 41_add.md R131: the sum modulo 256 and the unsigned carry, also as the low byte and the top bit of the 9-bit sum; the old
flag has no part in either. The destination is not register 15, whose case is AddToTheFlagRegisterKeepsTheCarry. -/
def Obligations.AddIsUnsignedWithCarryOut : Prop :=
  ∀ (x y : RegIdx) (s : State), x ≠ 15 → ∃ t,
    exec (.add x y) s = .next t ∧
    (t.reg x).toNat = ((s.reg x).toNat + (s.reg y).toNat) % 256 ∧
    ((t.reg 15).toNat = 1 ↔ 256 ≤ (s.reg x).toNat + (s.reg y).toNat) ∧
    ((t.reg 15).toNat = 0 ↔ (s.reg x).toNat + (s.reg y).toNat < 256) ∧
    t.reg x = ((s.reg x).setWidth 9 + (s.reg y).setWidth 9).extractLsb' 0 8 ∧
    t.reg 15 = (((s.reg x).setWidth 9 + (s.reg y).setWidth 9).extractLsb' 8 1).setWidth 8

/-- 41_add.md R133, the spec's decision D10 (log entry 9): with destination 15 the carry stays and the sum is lost. -/
def Obligations.AddToTheFlagRegisterKeepsTheCarry : Prop :=
  ∀ (y : RegIdx) (s : State), ∃ t,
    exec (.add 15 y) s = .next t ∧
    (t.reg 15).toNat = (if 255 < (s.reg 15).toNat + (s.reg y).toNat then 1 else 0) ∧
    ∀ r, r ≠ 15 → t.reg r = s.reg r

/-- 41_add.md R132, the rows about aliasing: doubling leaves the old bit 7 in the flag, and register 15 as the second source
is read as data before the carry of the sum overwrites it. With destination 15 the carry of the old values stays, which is the
spec's decision D10 (log entry 9). -/
def Obligations.AddReadsBothSourcesFirst : Prop :=
  ∀ (x y : RegIdx) (s : State),
    (x ≠ 15 → ∃ t, exec (.add x x) s = .next t ∧ t.reg x = s.reg x <<< 1 ∧
      (t.reg 15).toNat = ((s.reg x).extractLsb' 7 1).toNat) ∧
    (x ≠ 15 → ∃ t, exec (.add x 15) s = .next t ∧ t.reg x = s.reg x + s.reg 15 ∧
      (t.reg 15).toNat = if 255 < (s.reg x).toNat + (s.reg 15).toNat then 1 else 0) ∧
    (y ≠ 15 → ∃ t, exec (.add 15 y) s = .next t ∧ t.reg y = s.reg y ∧
      (t.reg 15).toNat = if 255 < (s.reg 15).toNat + (s.reg y).toNat then 1 else 0) ∧
    ∃ t, exec (.add 15 15) s = .next t ∧ (t.reg 15).toNat = ((s.reg 15).extractLsb' 7 1).toNat

/-- 41_add.md R134 (a): the two orders of the operands give one sum and one flag from one state; executed one after the other,
the second sees the first one's result. -/
def Obligations.AddCommutesInResult : Prop :=
  ∀ (x y : RegIdx) (s : State), x ≠ y → x ≠ 15 → y ≠ 15 → ∃ t u v,
    exec (.add x y) s = .next t ∧ exec (.add y x) s = .next u ∧ execAll [.add x y, .add y x] s = .next v ∧
    t.reg x = u.reg y ∧ t.reg 15 = u.reg 15 ∧
    t.reg y = s.reg y ∧ u.reg x = s.reg x ∧
    (v.reg y).toNat = ((s.reg x).toNat + 2 * (s.reg y).toNat) % 256

/-- 10_state.md R23: a step that executes an ADD leaves the carry of its operands in register 15, whatever the operands and
whatever register 15 held; every other step leaves register 15 as it was; so a register 15 that holds 0 or 1 still does after
the step. For destination 15 the carry is the spec's decision D10 (log entry 9). -/
def Obligations.FlagHoldsTheLastCarry : Prop :=
  ∀ (s t : State), step s = .next t →
    (∀ w x y, s.status = .running → fetch s = some w → decodeWord w = some (.add x y) →
      (t.reg 15).toNat = if 255 < (s.reg x).toNat + (s.reg y).toNat then 1 else 0) ∧
    ((¬ ∃ w x y, s.status = .running ∧ fetch s = some w ∧ decodeWord w = some (.add x y)) → t.reg 15 = s.reg 15) ∧
    ((s.reg 15).toNat ≤ 1 → (t.reg 15).toNat ≤ 1)

/-- 10_state.md R21, R23: only an ADD changes a register, and only its destination and register 15. -/
def Obligations.OnlyAddChangesRegisters : Prop :=
  ∀ (s t : State) (r : RegIdx), step s = .next t → t.reg r ≠ s.reg r →
    ∃ w x y, s.status = .running ∧ fetch s = some w ∧ decodeWord w = some (.add x y) ∧ (r = x ∨ r = 15)

/-! ### CALL and RET (42_call_return.md) -/

/-- 42_call_return.md R140: below the depth a CALL pushes the advanced pc, raises sp and jumps to its zero-extended target,
and changes nothing else. -/
def Obligations.CallPushesAndJumps : Prop :=
  ∀ (nnn : Addr12) (s : State), s.sp < s.stackDepth → s.stack.length = s.stackDepth → ∃ t,
    exec (.call nnn) s = .next t ∧
    t = { s with stack := s.stack.set s.sp (s.pc + 2), sp := s.sp + 1, pc := nnn.setWidth 16 } ∧
    t.pc.toNat = nnn.toNat ∧
    t.readSlot s.sp = some (s.pc + 2) ∧
    ∀ k, k ≠ s.sp → t.readSlot k = s.readSlot k

/-- 42_call_return.md R141, 60_exceptions.md R162: on a full stack a CALL faults, with nothing pushed and no jump. The record
and the status are the spec's decision D6 (log entry 4), the pc its decision D8 (log entry 8). -/
def Obligations.CallOnAFullStackFaults : Prop :=
  ∀ (nnn : Addr12) (s : State), s.sp = s.stackDepth →
    exec (.call nnn) s = .next { s with
      pc := s.pc + 2, status := .faulted,
      fault := some { kind := .stackOverflow, addr := s.pc, word := some (0x2#4 ++ nnn) } }

/-- 42_call_return.md R144: with an entry on the stack a RET lowers sp and jumps to the entry, and changes nothing else; the
slot keeps its value (the spec's decision D12, log entry 11). -/
def Obligations.RetPopsAndJumps : Prop :=
  ∀ (s : State) (n : Nat) (v : Word), s.sp = n + 1 → s.readSlot n = some v →
    exec .ret s = .next { s with sp := n, pc := v }

/-- 42_call_return.md R145, 60_exceptions.md R163: on an empty stack a RET faults, and the handler writes neither sp nor pc.
The record and the status are the spec's decision D6 (log entry 4), the pc its decision D8 (log entry 8). -/
def Obligations.RetOnAnEmptyStackFaults : Prop :=
  ∀ s : State, s.sp = 0 →
    exec .ret s = .next { s with
      pc := s.pc + 2, status := .faulted,
      fault := some { kind := .stackUnderflow, addr := s.pc, word := some 0x00EE } }

/-- The model's own stop (log entry 5): where the stack list lacks the slot that sp names, against 10_state.md R29 and R30,
CALL and RET stop by name. StepFromWfAnswersNext says that no state of the right shape stops. -/
def Obligations.MissingSlotStops : Prop :=
  (∀ (nnn : Addr12) (s : State), s.sp ≠ s.stackDepth → s.stack.length ≤ s.sp →
    exec (.call nnn) s = .fault .noStackSlot) ∧
  (∀ (s : State) (n : Nat), s.sp = n + 1 → s.readSlot n = none → exec .ret s = .fault .noStackSlot)

/-- 40_sequencer_halt.md R116, 42_call_return.md R140, R144: the frame of HALT, RET and CALL. Registers, the flag and memory
never change; a CALL changes at most the slot at the old sp; status and the fault record change only as HALT and the two
stack faults say. That a RET leaves the popped slot unchanged is the spec's decision D12 (log entry 11); the fault record is its
decision D6 (log entry 4). -/
def Obligations.HaltRetCallFrame : Prop :=
  ∀ (i : Instr) (s t : State), (i = .halt ∨ i = .ret ∨ ∃ nnn, i = .call nnn) → exec i s = .next t →
    (∀ r, t.reg r = s.reg r) ∧
    (∀ a, t.readByte a = s.readByte a) ∧
    t.memSize = s.memSize ∧ t.stackDepth = s.stackDepth ∧
    (∀ k, ((∃ nnn, i = .call nnn) → s.sp = s.stackDepth ∨ k ≠ s.sp) → t.readSlot k = s.readSlot k) ∧
    (i = .halt → t.sp = s.sp ∧ t.fault = s.fault) ∧
    (i = .ret → s.sp ≠ 0 → t.status = s.status ∧ t.fault = s.fault) ∧
    (i = .ret → s.sp = 0 → t.sp = s.sp) ∧
    ((∃ nnn, i = .call nnn) → s.sp ≠ s.stackDepth → t.status = s.status ∧ t.fault = s.fault) ∧
    ((∃ nnn, i = .call nnn) → s.sp = s.stackDepth → t.sp = s.sp)

/-- 42_call_return.md R147: matched CALLs and RETs return each to its caller and restore the stack; in particular N nested
CALLs followed by N RETs end at the address after the outermost CALL. -/
def Obligations.MatchedCallsReturn : Prop :=
  (∀ (m : Matched) (s : State), s.stack.length = s.stackDepth → s.sp + m.depth ≤ s.stackDepth → ∃ t,
    execAll m.instrs s = .next t ∧
    t.pc = s.pc + BitVec.ofNat 16 (2 * m.width) ∧ t.sp = s.sp ∧
    (∀ k, k < s.sp → t.readSlot k = s.readSlot k) ∧
    t.mem = s.mem ∧ t.status = s.status ∧ t.fault = s.fault) ∧
  (∀ (targets : List Addr12) (s : State), targets ≠ [] → s.stack.length = s.stackDepth →
    s.sp + targets.length ≤ s.stackDepth → ∃ t,
      execAll (targets.map .call ++ List.replicate targets.length .ret) s = .next t ∧
      t.pc = s.pc + 2 ∧ t.sp = s.sp)

/-- 42_call_return.md R141: as many un-returned CALLs as there are free slots succeed, and one more faults with the stack left
full. The status and the record are the spec's decision D6 (log entry 4). -/
def Obligations.CapacityPlusOneCallsOverflow : Prop :=
  ∀ (targets : List Addr12) (nnn : Addr12) (s : State), s.stack.length = s.stackDepth →
    s.sp + targets.length = s.stackDepth → ∃ t u,
      execAll (targets.map .call) s = .next t ∧ t.sp = t.stackDepth ∧ t.status = s.status ∧ t.fault = s.fault ∧
      exec (.call nnn) t = .next u ∧ u.status = .faulted ∧ u.fault.map (·.kind) = some .stackOverflow ∧
      u.sp = s.stackDepth ∧ u.stack = t.stack

/-- 10_state.md R29, R31: only a CALL changes a slot, only the one at sp, and it stores the address after the CALL. That a RET
changes none, the popped one included, is the spec's decision D12 (log entry 11). -/
def Obligations.OnlyCallChangesSlots : Prop :=
  ∀ (s t : State) (k : Nat), step s = .next t → t.readSlot k ≠ s.readSlot k →
    ∃ w nnn, s.status = .running ∧ fetch s = some w ∧ decodeWord w = some (.call nnn) ∧
      k = s.sp ∧ t.readSlot k = some (s.pc + 2)

/-- 42_call_return.md R148 (a): the path of a program is the same for all register contents: two runs that start alike but for
the registers stay alike but for the registers. -/
def Obligations.RegistersNeverSteerControl : Prop :=
  ∀ (n : Nat) (s t s' : State), s.SameButRegs t → Sys2Proof.core.run n s = .next s' →
    ∃ t', Sys2Proof.core.run n t = .next t' ∧ s'.SameButRegs t'

/-! ### Invariants (10_state.md) -/

/-- 40_sequencer_halt.md R115: from a Running state of the right shape no step is undefined or stuck. That a fault is a next
state is the spec's decision D6 (log entry 4); that a step from Halted or Faulted answers a next state is the model's choice
among the two R118 gives (log entry 3). -/
def Obligations.StepFromWfAnswersNext : Prop :=
  ∀ s : State, s.Wf → ∃ t, step s = .next t

/-- 10_state.md R29, R30, R33, 20_memory.md R50: every step keeps the shape of the state: canonical memory inside MEM_SIZE,
STACK_DEPTH slots, sp in range, a fault record exactly in Faulted; and it keeps the configuration. The status Faulted and the
record are the spec's decision D6 (log entry 4). -/
def Obligations.StepKeepsWf : Prop :=
  ∀ s t : State, s.Wf → step s = .next t → t.Wf ∧ t.memSize = s.memSize ∧ t.stackDepth = s.stackDepth

/-- 10_state.md R31 (a): every step keeps it true that each live slot holds the address right after a CALL word in memory. -/
def Obligations.StepKeepsReturnsFollowCalls : Prop :=
  ∀ s t : State, s.Wf → s.ReturnsFollowCalls → step s = .next t → t.ReturnsFollowCalls

/-- 10_state.md R27, R31, 40_sequencer_halt.md R112, 70_reset_and_hazards.md R220: every step keeps the pc and the live return
addresses in their ranges, and the advance after a successful fetch never wraps. -/
def Obligations.StepKeepsAddressesBounded : Prop :=
  (∀ (start : Word) (s t : State), s.AddressesBounded start → step s = .next t → t.AddressesBounded start) ∧
  ∀ (s : State) (w : Word), s.status = .running → fetch s = some w → (s.pc + 2).toNat = s.pc.toNat + 2

/-- 60_exceptions.md R161 to R164, R166: every step keeps it true that a fault record agrees with memory, pc and sp. The
record is the spec's decision D6 (log entry 4), the pc its decision D8 (log entry 8). -/
def Obligations.StepKeepsFaultRecordAgreement : Prop :=
  ∀ s t : State, s.Wf → s.FaultRecordAgrees → step s = .next t → t.FaultRecordAgrees

/-- 70_reset_and_hazards.md R208: the machine of every configuration right after reset is a launch state, and every launch
state meets the four invariants. The fault record in them is the spec's decision D6 (log entry 4). -/
def Obligations.LaunchStatesMeetTheInvariants : Prop :=
  (∀ c : Config, (State.construct c).Launch) ∧ State.reset.Launch ∧
  ∀ s : State, s.Launch → s.Wf ∧ s.ReturnsFollowCalls ∧ s.AddressesBounded s.pc ∧ s.FaultRecordAgrees

/-! ### Faults (60_exceptions.md) -/

/-- 60_exceptions.md R165 to R167: a step that faults changes only the status, the record and, but for OutOfBoundsFetch, the
pc by the advance; the record names the address and the word. The record is the spec's decision D6 (log entry 4), the pc its
decision D8 (log entry 8). -/
def Obligations.FaultsArePrecise : Prop :=
  ∀ s t : State, s.status = .running → step s = .next t → t.status = .faulted →
    { t with pc := s.pc, status := s.status, fault := s.fault } = s ∧
    ∃ r, t.fault = some r ∧ r.addr = s.pc ∧ r.word = fetch s ∧
      (r.kind = .outOfBoundsFetch ↔ fetch s = none) ∧
      t.pc = if r.kind = .outOfBoundsFetch then s.pc else s.pc + 2

/-- 60_exceptions.md R160: the four codes in order, 0 for no fault (the spec's decision D7). -/
def Obligations.FaultCodesAreTheSpecs : Prop :=
  faultCode none = 0 ∧
  ∀ (a : Word) (w : Option Word),
    faultCode (some { kind := .unknownOpcode, addr := a, word := w }) = 1 ∧
    faultCode (some { kind := .stackOverflow, addr := a, word := w }) = 2 ∧
    faultCode (some { kind := .stackUnderflow, addr := a, word := w }) = 3 ∧
    faultCode (some { kind := .outOfBoundsFetch, addr := a, word := w }) = 4

/-! ### Reset and the host (70_reset_and_hazards.md) -/

/-- 10_state.md R36: what reset leaves, for every configuration, read through the read-backs. That there is no fault record
is the spec's decision D6 (log entry 4). -/
def Obligations.ResetZeroesEverything : Prop :=
  ∀ c : Config,
    (∀ a, (State.construct c).readByte a = if a < c.memSize.val then some 0x00 else none) ∧
    (∀ r, (State.construct c).reg r = 0x00) ∧
    (∀ k, (State.construct c).readSlot k = if k < c.stackDepth then some 0x0000 else none) ∧
    (State.construct c).sp = 0 ∧ (State.construct c).pc = c.startPc ∧
    (State.construct c).status = .running ∧ (State.construct c).fault = none ∧
    State.reset = State.construct { memSize := 4096, stackDepth := 16, startPc := 0 }

/-- 10_state.md R36, last sentence: a machine run with nothing loaded halts on its first step, or faults where the start
address has no two bytes of memory. The status and the record of that fault are the spec's decision D6 (log entry 4). -/
def Obligations.EmptyMachineHalts : Prop :=
  ∀ c : Config,
    (c.startPc.toNat + 2 ≤ c.memSize.val →
      step (State.construct c) = .next { State.construct c with pc := c.startPc + 2, status := .halted }) ∧
    (c.memSize.val < c.startPc.toNat + 2 →
      ∃ t, step (State.construct c) = .next t ∧ t.status = .faulted ∧ t.fault.map (·.kind) = some .outOfBoundsFetch)

/-- 70_reset_and_hazards.md R200: Reset is accepted in every phase and leaves nothing of an earlier run; sizes outside the
legal range are refused (the model's choice, log entry 14). -/
def Obligations.HostResetStartsOver : Prop :=
  ∀ (m n : Nat) (c : Session),
    (2 ≤ m → m ≤ 65535 → 1 ≤ n → ∃ d,
      c.apply (.reset m n) = .next d ∧ d.phase = .loading ∧ d.machine.memSize.val = m ∧
      ∃ k, d.machine = State.construct k ∧ k.stackDepth = n ∧ k.startPc = 0) ∧
    (m < 2 ∨ 65535 < m ∨ n = 0 → c.apply (.reset m n) = .refused .illegalConfiguration)

/-- 70_reset_and_hazards.md R205: LoadBytes stores exactly its bytes, or is refused whole where it would leave memory (the
spec's decision D15, log entry 15). -/
def Obligations.LoadBytesStoresExactly : Prop :=
  ∀ (o : Nat) (bs : List Byte) (c : Session), c.phase = .loading → c.machine.mem.wf = true →
    (o + bs.length ≤ c.machine.memSize.val → ∃ d,
      c.apply (.loadBytes o bs) = .next d ∧ d.phase = .loading ∧ d.machine.mem.wf = true ∧
      (∀ a, d.machine.readByte a =
        if o ≤ a ∧ a < o + bs.length then bs[a - o]? else c.machine.readByte a) ∧
      { d.machine with mem := c.machine.mem } = c.machine) ∧
    (c.machine.memSize.val < o + bs.length → c.apply (.loadBytes o bs) = .refused .loadOutsideMemory)

/-- 70_reset_and_hazards.md R206, R207: SetReg writes one register, SetStart the pc, any value of either; nothing else
changes. That SetStart takes every address is the spec's decision: D3 for addresses where no word can be fetched, D3 and D11
for odd ones (log entry 10). -/
def Obligations.SetRegAndSetStartWriteOneThing : Prop :=
  ∀ c : Session, c.phase = .loading →
    (∀ i v, ∃ d, c.apply (.setReg i v) = .next d ∧ d.phase = .loading ∧ d.machine.reg i = v ∧
      (∀ r, r ≠ i → d.machine.reg r = c.machine.reg r) ∧
      { d.machine with regs := c.machine.regs } = c.machine) ∧
    (∀ a, c.apply (.setStart a) = .next { c with machine := { c.machine with pc := a } })

/-- 70_reset_and_hazards.md R204, R211: the host writes nothing once a step has been taken and cannot resume a terminal
machine (the spec's decision D14, log entries 7 and 15). -/
def Obligations.HostWritesOnlyWhileLoading : Prop :=
  ∀ c : Session, c.phase ≠ .loading →
    (∀ o bs, c.apply (.loadBytes o bs) = .refused .outOfPhase) ∧
    (∀ i v, c.apply (.setReg i v) = .refused .outOfPhase) ∧
    (∀ a, c.apply (.setStart a) = .refused .outOfPhase) ∧
    (c.phase = .terminal → c.apply .step = .refused .outOfPhase)

/-- 70_reset_and_hazards.md R208: whatever the host does, a machine in the LOADING phase is a launch state. The phases are the
spec's decision D14 (log entry 7), that there is a fault record to be none its decision D6 (log entry 4). -/
def Obligations.LoadingMachinesAreLaunchStates : Prop :=
  ∀ (ts : List Transaction) (c d : Session), Session.AppliesTo ts c d →
    (c.phase = .loading → c.machine.Launch) → d.phase = .loading → d.machine.Launch

/-- 70_reset_and_hazards.md R203, R211: no transaction of the host breaks the shape of the state, and the phase is TERMINAL
exactly when the status is not Running. The phases are the spec's decision D14 (log entry 7), the status Faulted and the
record in the shape its decision D6 (log entry 4). -/
def Obligations.TransactionsKeepWfAndPhase : Prop :=
  ∀ (t : Transaction) (c d : Session), c.machine.Wf → (c.phase = .terminal ↔ c.machine.status ≠ .running) →
    c.apply t = .next d → d.machine.Wf ∧ (d.phase = .terminal ↔ d.machine.status ≠ .running)

/-- 20_memory.md R55, 70_reset_and_hazards.md R205: a word loaded at the pc, most significant byte first, is the word the next
step fetches, and nothing but the memory changes (the load of one word, log entry 6). -/
def Obligations.LoadedWordIsFetched : Prop :=
  ∀ (s : State) (w : Word), s.mem.wf = true → s.pc.toNat + 2 ≤ s.memSize.val →
    fetch (s.withFetchWord 16 w.toNat) = some w ∧ { s.withFetchWord 16 w.toNat with mem := s.mem } = s ∧
    ∀ a, a ≠ s.pc.toNat → a ≠ s.pc.toNat + 1 → (s.withFetchWord 16 w.toNat).readByte a = s.readByte a
end

