-- ==== Sys2Proof/Laws/Decode.lean ====
section
/-! SUPPORT. The words of the operand-carrying instructions and of two bytes as numbers. -/

namespace Sys2Proof

theorem wordOfBytes_toNat (hi lo : Byte) : (wordOfBytes hi lo).toNat = hi.toNat * 256 + lo.toNat := by
  simp only [wordOfBytes, BitVec.toNat_append]
  rw [← Nat.shiftLeft_add_eq_or_of_lt lo.isLt, Nat.shiftLeft_eq]

theorem wordOfBytes_high_low (w : Word) : wordOfBytes (highByte w) (lowByte w) = w := by
  have hw := w.isLt
  apply BitVec.eq_of_toNat_eq
  rw [wordOfBytes_toNat]
  simp only [highByte, lowByte, BitVec.extractLsb'_toNat, Nat.shiftRight_eq_div_pow]
  omega

theorem encode_call_toNat (nnn : Addr12) : (encode (.call nnn)).toNat = 0x2000 + nnn.toNat := by
  simp only [encode, BitVec.toNat_append]
  rw [← Nat.shiftLeft_add_eq_or_of_lt nnn.isLt]
  simp [Nat.shiftLeft_eq]

theorem encode_add_toNat (x y : RegIdx) : (encode (.add x y)).toNat = 0x8004 + x.toNat * 256 + y.toNat * 16 := by
  simp only [encode, BitVec.toNat_append]
  rw [← Nat.shiftLeft_add_eq_or_of_lt x.isLt, ← Nat.shiftLeft_add_eq_or_of_lt y.isLt,
    ← Nat.shiftLeft_add_eq_or_of_lt (BitVec.isLt _)]
  simp [Nat.shiftLeft_eq]
  omega

end Sys2Proof
end

