-- ==== Sys2Proof/Laws/State.lean ====
section
/-! SUPPORT. One lemma per field per update, each true by unfolding, so that no proof unfolds a record update. -/

namespace Sys2Proof.Machine

/-! ### setPc -/

@[simp] theorem State.setPc_memSize (s : State) (t : Word) : (s.setPc t).memSize = s.memSize := rfl
@[simp] theorem State.setPc_stackDepth (s : State) (t : Word) : (s.setPc t).stackDepth = s.stackDepth := rfl
@[simp] theorem State.setPc_mem (s : State) (t : Word) : (s.setPc t).mem = s.mem := rfl
@[simp] theorem State.setPc_regs (s : State) (t : Word) : (s.setPc t).regs = s.regs := rfl
@[simp] theorem State.setPc_pc (s : State) (t : Word) : (s.setPc t).pc = t := rfl
@[simp] theorem State.setPc_stack (s : State) (t : Word) : (s.setPc t).stack = s.stack := rfl
@[simp] theorem State.setPc_sp (s : State) (t : Word) : (s.setPc t).sp = s.sp := rfl
@[simp] theorem State.setPc_status (s : State) (t : Word) : (s.setPc t).status = s.status := rfl
@[simp] theorem State.setPc_fault (s : State) (t : Word) : (s.setPc t).fault = s.fault := rfl

/-! ### advance -/

@[simp] theorem State.advance_memSize (s : State) : (s.advance).memSize = s.memSize := rfl
@[simp] theorem State.advance_stackDepth (s : State) : (s.advance).stackDepth = s.stackDepth := rfl
@[simp] theorem State.advance_mem (s : State) : (s.advance).mem = s.mem := rfl
@[simp] theorem State.advance_regs (s : State) : (s.advance).regs = s.regs := rfl
@[simp] theorem State.advance_pc (s : State) : (s.advance).pc = s.pc + 2 := rfl
@[simp] theorem State.advance_stack (s : State) : (s.advance).stack = s.stack := rfl
@[simp] theorem State.advance_sp (s : State) : (s.advance).sp = s.sp := rfl
@[simp] theorem State.advance_status (s : State) : (s.advance).status = s.status := rfl
@[simp] theorem State.advance_fault (s : State) : (s.advance).fault = s.fault := rfl

/-! ### setStatus -/

@[simp] theorem State.setStatus_memSize (s : State) (v : Status) : (s.setStatus v).memSize = s.memSize := rfl
@[simp] theorem State.setStatus_stackDepth (s : State) (v : Status) : (s.setStatus v).stackDepth = s.stackDepth := rfl
@[simp] theorem State.setStatus_mem (s : State) (v : Status) : (s.setStatus v).mem = s.mem := rfl
@[simp] theorem State.setStatus_regs (s : State) (v : Status) : (s.setStatus v).regs = s.regs := rfl
@[simp] theorem State.setStatus_pc (s : State) (v : Status) : (s.setStatus v).pc = s.pc := rfl
@[simp] theorem State.setStatus_stack (s : State) (v : Status) : (s.setStatus v).stack = s.stack := rfl
@[simp] theorem State.setStatus_sp (s : State) (v : Status) : (s.setStatus v).sp = s.sp := rfl
@[simp] theorem State.setStatus_status (s : State) (v : Status) : (s.setStatus v).status = v := rfl
@[simp] theorem State.setStatus_fault (s : State) (v : Status) : (s.setStatus v).fault = s.fault := rfl

/-! ### setReg -/

@[simp] theorem State.setReg_memSize (s : State) (i : RegIdx) (v : Byte) : (s.setReg i v).memSize = s.memSize := rfl
@[simp] theorem State.setReg_stackDepth (s : State) (i : RegIdx) (v : Byte) : (s.setReg i v).stackDepth = s.stackDepth := rfl
@[simp] theorem State.setReg_mem (s : State) (i : RegIdx) (v : Byte) : (s.setReg i v).mem = s.mem := rfl
@[simp] theorem State.setReg_regs (s : State) (i : RegIdx) (v : Byte) : (s.setReg i v).regs = s.regs.set i.toNat v i.isLt := rfl
@[simp] theorem State.setReg_pc (s : State) (i : RegIdx) (v : Byte) : (s.setReg i v).pc = s.pc := rfl
@[simp] theorem State.setReg_stack (s : State) (i : RegIdx) (v : Byte) : (s.setReg i v).stack = s.stack := rfl
@[simp] theorem State.setReg_sp (s : State) (i : RegIdx) (v : Byte) : (s.setReg i v).sp = s.sp := rfl
@[simp] theorem State.setReg_status (s : State) (i : RegIdx) (v : Byte) : (s.setReg i v).status = s.status := rfl
@[simp] theorem State.setReg_fault (s : State) (i : RegIdx) (v : Byte) : (s.setReg i v).fault = s.fault := rfl

/-! ### writeByte -/

@[simp] theorem State.writeByte_memSize (s : State) (a : Nat) (v : Byte) : (s.writeByte a v).memSize = s.memSize := rfl
@[simp] theorem State.writeByte_stackDepth (s : State) (a : Nat) (v : Byte) : (s.writeByte a v).stackDepth = s.stackDepth := rfl
@[simp] theorem State.writeByte_mem (s : State) (a : Nat) (v : Byte) : (s.writeByte a v).mem = if a < s.memSize.val then s.mem.write a v else s.mem := rfl
@[simp] theorem State.writeByte_regs (s : State) (a : Nat) (v : Byte) : (s.writeByte a v).regs = s.regs := rfl
@[simp] theorem State.writeByte_pc (s : State) (a : Nat) (v : Byte) : (s.writeByte a v).pc = s.pc := rfl
@[simp] theorem State.writeByte_stack (s : State) (a : Nat) (v : Byte) : (s.writeByte a v).stack = s.stack := rfl
@[simp] theorem State.writeByte_sp (s : State) (a : Nat) (v : Byte) : (s.writeByte a v).sp = s.sp := rfl
@[simp] theorem State.writeByte_status (s : State) (a : Nat) (v : Byte) : (s.writeByte a v).status = s.status := rfl
@[simp] theorem State.writeByte_fault (s : State) (a : Nat) (v : Byte) : (s.writeByte a v).fault = s.fault := rfl

/-! ### takeFault -/

@[simp] theorem takeFault_memSize (s : State) (k : FaultKind) (a : Word) (w : Option Word) : (takeFault s k a w).memSize = s.memSize := rfl
@[simp] theorem takeFault_stackDepth (s : State) (k : FaultKind) (a : Word) (w : Option Word) : (takeFault s k a w).stackDepth = s.stackDepth := rfl
@[simp] theorem takeFault_mem (s : State) (k : FaultKind) (a : Word) (w : Option Word) : (takeFault s k a w).mem = s.mem := rfl
@[simp] theorem takeFault_regs (s : State) (k : FaultKind) (a : Word) (w : Option Word) : (takeFault s k a w).regs = s.regs := rfl
@[simp] theorem takeFault_pc (s : State) (k : FaultKind) (a : Word) (w : Option Word) : (takeFault s k a w).pc = s.pc := rfl
@[simp] theorem takeFault_stack (s : State) (k : FaultKind) (a : Word) (w : Option Word) : (takeFault s k a w).stack = s.stack := rfl
@[simp] theorem takeFault_sp (s : State) (k : FaultKind) (a : Word) (w : Option Word) : (takeFault s k a w).sp = s.sp := rfl
@[simp] theorem takeFault_status (s : State) (k : FaultKind) (a : Word) (w : Option Word) : (takeFault s k a w).status = .faulted := rfl
@[simp] theorem takeFault_fault (s : State) (k : FaultKind) (a : Word) (w : Option Word) : (takeFault s k a w).fault = some { kind := k, addr := a, word := w } := rfl

/-! ### outOfBoundsFetch -/

@[simp] theorem outOfBoundsFetch_memSize (s : State) : (outOfBoundsFetch s).memSize = s.memSize := rfl
@[simp] theorem outOfBoundsFetch_stackDepth (s : State) : (outOfBoundsFetch s).stackDepth = s.stackDepth := rfl
@[simp] theorem outOfBoundsFetch_mem (s : State) : (outOfBoundsFetch s).mem = s.mem := rfl
@[simp] theorem outOfBoundsFetch_regs (s : State) : (outOfBoundsFetch s).regs = s.regs := rfl
@[simp] theorem outOfBoundsFetch_pc (s : State) : (outOfBoundsFetch s).pc = s.pc := rfl
@[simp] theorem outOfBoundsFetch_stack (s : State) : (outOfBoundsFetch s).stack = s.stack := rfl
@[simp] theorem outOfBoundsFetch_sp (s : State) : (outOfBoundsFetch s).sp = s.sp := rfl
@[simp] theorem outOfBoundsFetch_status (s : State) : (outOfBoundsFetch s).status = .faulted := rfl
@[simp] theorem outOfBoundsFetch_fault (s : State) : (outOfBoundsFetch s).fault = some { kind := .outOfBoundsFetch, addr := s.pc, word := none } := rfl

/-! ### unknownOpcode -/

@[simp] theorem unknownOpcode_memSize (s : State) (w : Word) : (unknownOpcode s w).memSize = s.memSize := rfl
@[simp] theorem unknownOpcode_stackDepth (s : State) (w : Word) : (unknownOpcode s w).stackDepth = s.stackDepth := rfl
@[simp] theorem unknownOpcode_mem (s : State) (w : Word) : (unknownOpcode s w).mem = s.mem := rfl
@[simp] theorem unknownOpcode_regs (s : State) (w : Word) : (unknownOpcode s w).regs = s.regs := rfl
@[simp] theorem unknownOpcode_pc (s : State) (w : Word) : (unknownOpcode s w).pc = s.pc + 2 := rfl
@[simp] theorem unknownOpcode_stack (s : State) (w : Word) : (unknownOpcode s w).stack = s.stack := rfl
@[simp] theorem unknownOpcode_sp (s : State) (w : Word) : (unknownOpcode s w).sp = s.sp := rfl
@[simp] theorem unknownOpcode_status (s : State) (w : Word) : (unknownOpcode s w).status = .faulted := rfl
@[simp] theorem unknownOpcode_fault (s : State) (w : Word) : (unknownOpcode s w).fault = some { kind := .unknownOpcode, addr := s.pc, word := some w } := rfl

/-! ### construct -/

@[simp] theorem State.construct_memSize (c : Config) : (State.construct c).memSize = c.memSize := rfl
@[simp] theorem State.construct_stackDepth (c : Config) : (State.construct c).stackDepth = c.stackDepth := rfl
@[simp] theorem State.construct_mem (c : Config) : (State.construct c).mem = [] := rfl
@[simp] theorem State.construct_regs (c : Config) : (State.construct c).regs = Vector.replicate 16 0x00 := rfl
@[simp] theorem State.construct_pc (c : Config) : (State.construct c).pc = c.startPc := rfl
@[simp] theorem State.construct_stack (c : Config) :
    (State.construct c).stack = List.replicate c.stackDepth 0x0000 := rfl
@[simp] theorem State.construct_sp (c : Config) : (State.construct c).sp = 0 := rfl
@[simp] theorem State.construct_status (c : Config) : (State.construct c).status = .running := rfl
@[simp] theorem State.construct_fault (c : Config) : (State.construct c).fault = none := rfl

/-! ### Registers -/

@[simp] theorem State.reg_setReg_same (s : State) (i : RegIdx) (v : Byte) : (s.setReg i v).reg i = v := by
  simp [State.reg]

theorem State.reg_setReg_other (s : State) (i j : RegIdx) (v : Byte) (h : j ≠ i) : (s.setReg i v).reg j = s.reg j := by
  have hne : i.toNat ≠ j.toNat := fun e => h (BitVec.eq_of_toNat_eq e.symm)
  simp [State.reg, hne]

/-- A register read depends on the register file alone. -/
theorem State.reg_congr {s t : State} (h : t.regs = s.regs) (i : RegIdx) : t.reg i = s.reg i := by
  simp [State.reg, h]

@[simp] theorem State.reg_advance (s : State) (i : RegIdx) : s.advance.reg i = s.reg i := rfl
@[simp] theorem State.reg_setPc (s : State) (t : Word) (i : RegIdx) : (s.setPc t).reg i = s.reg i := rfl
@[simp] theorem State.reg_setStatus (s : State) (v : Status) (i : RegIdx) : (s.setStatus v).reg i = s.reg i := rfl
@[simp] theorem reg_takeFault (s : State) (k : FaultKind) (a : Word) (w : Option Word) (i : RegIdx) :
    (takeFault s k a w).reg i = s.reg i := rfl

/-- Two states with the same fields are equal, the register file compared register by register. -/
theorem State.ext_reg {s t : State} (hm : s.memSize = t.memSize) (hd : s.stackDepth = t.stackDepth) (hmem : s.mem = t.mem)
    (hr : ∀ i, s.reg i = t.reg i) (hpc : s.pc = t.pc) (hst : s.stack = t.stack) (hsp : s.sp = t.sp)
    (hs : s.status = t.status) (hf : s.fault = t.fault) : s = t := by
  have hregs : s.regs = t.regs := by
    apply Vector.ext
    intro i hi
    have h := hr (BitVec.ofNat 4 i)
    simpa [State.reg, Nat.mod_eq_of_lt hi] using h
  cases s; cases t; simp_all

end Sys2Proof.Machine
end

