-- ==== Sys2Proof/Laws/Memory.lean ====
section
/-! SUPPORT. The laws of Memory: a read after a write, and that every memory operation keeps the canonical form. -/

namespace Sys2Proof.Machine

theorem Memory.read_nil (k : Nat) : Memory.read [] k = Memory.unlistedByte := rfl

theorem Memory.risingFrom_cons {lo a : Nat} {b : Byte} {m : Memory} :
    Memory.risingFrom lo ((a, b) :: m) = true ↔
      lo ≤ a ∧ b ≠ Memory.unlistedByte ∧ Memory.risingFrom (a + 1) m = true := by
  simp [Memory.risingFrom, and_assoc]

/-- A smaller lower bound is weaker. -/
theorem Memory.risingFrom_mono {lo hi : Nat} (h : lo ≤ hi) :
    ∀ {m : Memory}, Memory.risingFrom hi m = true → Memory.risingFrom lo m = true
  | [], _ => rfl
  | (a, b) :: m, hm => by
    rw [Memory.risingFrom_cons] at hm ⊢
    exact ⟨h.trans hm.1, hm.2⟩

/-- Below the first listed address nothing is listed. -/
theorem Memory.read_below {lo k : Nat} (h : k < lo) :
    ∀ {m : Memory}, Memory.risingFrom lo m = true → Memory.read m k = Memory.unlistedByte
  | [], _ => rfl
  | (a, b) :: m, hm => by
    rw [Memory.risingFrom_cons] at hm
    have hne : a ≠ k := by omega
    rw [Memory.read, if_neg hne]
    exact Memory.read_below (by omega) hm.2.2

/-- A write keeps the canonical form. -/
theorem Memory.risingFrom_write {lo k : Nat} (v : Byte) (hk : lo ≤ k) :
    ∀ {m : Memory}, Memory.risingFrom lo m = true → Memory.risingFrom lo (Memory.write m k v) = true
  | [], _ => by
    by_cases hv : v = Memory.unlistedByte
    · simp [Memory.write, hv, Memory.risingFrom]
    · simp [Memory.write, hv, Memory.risingFrom, hk]
  | (a, b) :: m, hm => by
    have hc := Memory.risingFrom_cons.1 hm
    unfold Memory.write
    split
    · split
      · exact hm
      · exact Memory.risingFrom_cons.2 ⟨hk, ‹_›, Memory.risingFrom_cons.2 ⟨by omega, hc.2⟩⟩
    · split
      · split
        · exact Memory.risingFrom_mono (by omega) hc.2.2
        · exact Memory.risingFrom_cons.2 ⟨hk, ‹_›, by subst k; exact hc.2.2⟩
      · exact Memory.risingFrom_cons.2 ⟨hc.1, hc.2.1, Memory.risingFrom_write v (by omega) hc.2.2⟩

theorem Memory.wf_nil : Memory.wf [] = true := rfl

theorem Memory.wf_write {m : Memory} (k : Nat) (v : Byte) (hm : m.wf = true) : (m.write k v).wf = true :=
  Memory.risingFrom_write v (Nat.zero_le k) hm

/-- What a write stores is read back, in a canonical memory. -/
theorem Memory.read_write_same {lo k : Nat} (v : Byte) :
    ∀ {m : Memory}, Memory.risingFrom lo m = true → Memory.read (Memory.write m k v) k = v
  | [], _ => by
    by_cases hv : v = Memory.unlistedByte <;> simp [Memory.write, hv, Memory.read]
  | (a, b) :: m, hm => by
    have hc := Memory.risingFrom_cons.1 hm
    unfold Memory.write
    split
    · split
      · have hne : a ≠ k := by omega
        rw [Memory.read, if_neg hne, Memory.read_below (lo := a + 1) (by omega) hc.2.2]
        exact Eq.symm ‹_›
      · simp [Memory.read]
    · split
      · split
        · rw [Memory.read_below (lo := a + 1) (by omega) hc.2.2]
          exact Eq.symm ‹_›
        · simp [Memory.read]
      · have hne : a ≠ k := fun e => ‹¬k = a› e.symm
        rw [Memory.read, if_neg hne]
        exact Memory.read_write_same v hc.2.2

/-- A write leaves every other address alone. -/
theorem Memory.read_write_other {j k : Nat} (v : Byte) (h : j ≠ k) :
    ∀ (m : Memory), Memory.read (Memory.write m k v) j = Memory.read m j
  | [] => by
    by_cases hv : v = Memory.unlistedByte
    · simp [Memory.write, hv]
    · simp [Memory.write, hv, Memory.read, Ne.symm h]
  | (a, b) :: m => by
    unfold Memory.write
    split
    · split
      · rfl
      · rw [Memory.read, if_neg (Ne.symm h)]
    · split
      · subst k
        split <;> simp [Memory.read, Ne.symm h]
      · simp only [Memory.read, Memory.read_write_other v h m]

/-- The addresses a write lists are the old ones and the one written. -/
theorem Memory.mem_write {k : Nat} {v : Byte} {c : Host.Cell} :
    ∀ {m : Memory}, c ∈ Memory.write m k v → c ∈ m ∨ c.1 = k
  | [], h => by
    unfold Memory.write at h
    split at h
    · simp at h
    · simp at h; simp [h]
  | (a, b) :: m, h => by
    unfold Memory.write at h
    split at h
    · split at h
      · exact .inl h
      · rcases List.mem_cons.1 h with rfl | h
        · exact .inr rfl
        · exact .inl h
    · split at h
      · split at h
        · exact .inl (List.mem_cons_of_mem _ h)
        · rcases List.mem_cons.1 h with rfl | h
          · exact .inr rfl
          · exact .inl (List.mem_cons_of_mem _ h)
      · rcases List.mem_cons.1 h with rfl | h
        · exact .inl List.mem_cons_self
        · exact (Memory.mem_write h).imp_left (List.mem_cons_of_mem _)

theorem State.writeByte_wf (s : State) (a : Nat) (v : Byte) (h : s.mem.wf = true) : (s.writeByte a v).mem.wf = true := by
  rw [State.writeByte_mem]
  split
  · exact Memory.wf_write a v h
  · exact h

/-- No write lists an address outside memory. -/
theorem State.writeByte_inside (s : State) (a : Nat) (v : Byte) (h : ∀ c ∈ s.mem, c.1 < s.memSize.val) :
    ∀ c ∈ (s.writeByte a v).mem, c.1 < s.memSize.val := by
  intro c hc
  rw [State.writeByte_mem] at hc
  split at hc
  · rcases Memory.mem_write hc with hm | he
    · exact h c hm
    · omega
  · exact h c hc

theorem State.writeBytes_wf (s : State) (a : Nat) (bs : List Byte) (h : s.mem.wf = true) :
    (s.writeBytes a bs).mem.wf = true := by
  induction bs generalizing s a with
  | nil => exact h
  | cons b bs ih => exact ih _ _ (s.writeByte_wf a b h)

theorem storeWord_wf (s : State) (a : Nat) (w : Word) (h : s.mem.wf = true) : (storeWord s a w).mem.wf = true :=
  State.writeByte_wf _ _ _ (s.writeByte_wf _ _ h)

/-- The fetch reads memory and its size alone. -/
theorem fetchAt_congr {s t : State} (hm : t.mem = s.mem) (hs : t.memSize = s.memSize) (a : Word) :
    fetchAt t a = fetchAt s a := by
  simp [fetchAt, hm, hs]

/-- A fetch succeeds exactly where both bytes are inside memory. -/
theorem fetchAt_eq_none {s : State} {a : Word} : fetchAt s a = none ↔ s.memSize.val < a.toNat + 2 := by
  unfold fetchAt
  split
  · simp; omega
  · simp; omega

theorem fetchAt_inside {s : State} {a w : Word} (h : fetchAt s a = some w) : a.toNat + 2 ≤ s.memSize.val := by
  by_contra hc
  rw [fetchAt_eq_none.2 (by omega)] at h
  exact absurd h (by simp)

/-- After a successful fetch the advance does not wrap. -/
theorem toNat_add_two_of_fetch {s : State} {a w : Word} (h : fetchAt s a = some w) : (a + 2).toNat = a.toNat + 2 := by
  have hin := fetchAt_inside h
  have hsz := s.memSize.isLt
  have htwo : (2 : Word).toNat = 2 := rfl
  rw [BitVec.toNat_add, htwo]
  omega

end Sys2Proof.Machine
end

