-- ==== Sys2Proof/Laws/Exec.lean ====
section
/-! SUPPORT. For each shared operation and each meaning, one lemma that says everything it can do; the provers cite these
instead of unfolding. -/

namespace Sys2Proof.Machine

/-- The flag register is register 15. -/
theorem flagReg_eq : flagReg = 15 := rfl

/-- The sum byte is the sum modulo 256. -/
theorem sumByte_toNat (a b : Byte) : (sumByte a b).toNat = (a.toNat + b.toNat) % 256 := by
  simp [sumByte, exactSum]

/-- The carry byte is 1 above 255 and 0 otherwise. -/
theorem carryByte_toNat (a b : Byte) : (carryByte a b).toNat = if 255 < a.toNat + b.toNat then 1 else 0 := by
  unfold carryByte exactSum
  split <;> simp

theorem pushSlot_cases {s t : State} {v : Word} (h : pushSlot s v = some t) :
    s.sp < s.stack.length ∧ t = { s with stack := s.stack.set s.sp v, sp := s.sp + 1 } := by
  unfold pushSlot at h
  split at h
  · exact ⟨‹_›, (Option.some.inj h).symm⟩
  · cases h

theorem popSlot_cases {s t : State} {v : Word} (h : popSlot s = some (v, t)) :
    ∃ n, s.sp = n + 1 ∧ s.stack[n]? = some v ∧ t = { s with sp := n } := by
  unfold popSlot at h
  split at h
  · cases h
  · rename_i n hn
    split at h
    · rename_i w hw
      cases h
      exact ⟨n, hn, hw, rfl⟩
    · cases h

/-- HALT has one outcome. -/
theorem execHalt_cases {s t : State} (h : execHalt s = .next t) : t = s.advance.setStatus .halted := by
  cases h; rfl

/-- ADD has one outcome. -/
theorem execAdd_cases {x y : RegIdx} {s t : State} (h : execAdd x y s = .next t) :
    t = (s.advance.setReg x (sumByte (s.reg x) (s.reg y))).setReg flagReg (carryByte (s.reg x) (s.reg y)) := by
  cases h; rfl

/-- CALL raises StackOverflow on a full stack and otherwise pushes and jumps. -/
theorem execCall_cases {nnn : Addr12} {s t : State} (h : execCall nnn s = .next t) :
    (s.sp = s.stackDepth ∧ t = takeFault s.advance .stackOverflow s.pc (some (encode (.call nnn)))) ∨
    (s.sp ≠ s.stackDepth ∧ s.sp < s.stack.length ∧
      t = { s with stack := s.stack.set s.sp (s.pc + 2), sp := s.sp + 1, pc := callTarget nnn }) := by
  unfold execCall at h
  split at h
  · exact .inl ⟨‹_›, by cases h; rfl⟩
  · split at h
    · rename_i u hu
      obtain ⟨hlt, rfl⟩ := pushSlot_cases hu
      cases h
      exact .inr ⟨‹_›, hlt, rfl⟩
    · cases h

/-- RET raises StackUnderflow on an empty stack and otherwise pops and jumps. -/
theorem execRet_cases {s t : State} (h : execRet s = .next t) :
    (s.sp = 0 ∧ t = takeFault s.advance .stackUnderflow s.pc (some (encode .ret))) ∨
    (∃ n v, s.sp = n + 1 ∧ s.stack[n]? = some v ∧ t = { s with sp := n, pc := v }) := by
  unfold execRet at h
  split at h
  · exact .inl ⟨‹_›, by cases h; rfl⟩
  · split at h
    · rename_i v u hu
      obtain ⟨n, hn, hv, rfl⟩ := popSlot_cases hu
      cases h
      exact .inr ⟨n, v, hn, hv, rfl⟩
    · cases h

/-- Everything an instruction can do when it answers a next state. -/
theorem exec_cases {i : Instr} {s t : State} (h : exec i s = .next t) :
    (i = .halt ∧ t = s.advance.setStatus .halted) ∨
    (∃ x y, i = .add x y ∧
      t = (s.advance.setReg x (sumByte (s.reg x) (s.reg y))).setReg flagReg (carryByte (s.reg x) (s.reg y))) ∨
    (∃ nnn, i = .call nnn ∧ s.sp = s.stackDepth ∧
      t = takeFault s.advance .stackOverflow s.pc (some (encode (.call nnn)))) ∨
    (∃ nnn, i = .call nnn ∧ s.sp ≠ s.stackDepth ∧ s.sp < s.stack.length ∧
      t = { s with stack := s.stack.set s.sp (s.pc + 2), sp := s.sp + 1, pc := callTarget nnn }) ∨
    (i = .ret ∧ s.sp = 0 ∧ t = takeFault s.advance .stackUnderflow s.pc (some (encode .ret))) ∨
    (∃ n v, i = .ret ∧ s.sp = n + 1 ∧ s.stack[n]? = some v ∧ t = { s with sp := n, pc := v }) := by
  cases i with
  | halt => exact .inl ⟨rfl, execHalt_cases h⟩
  | add x y => exact .inr (.inl ⟨x, y, rfl, execAdd_cases h⟩)
  | call nnn =>
    rcases execCall_cases h with ⟨hfull, ht⟩ | ⟨hfree, hslot, ht⟩
    · exact .inr (.inr (.inl ⟨nnn, rfl, hfull, ht⟩))
    · exact .inr (.inr (.inr (.inl ⟨nnn, rfl, hfree, hslot, ht⟩)))
  | ret =>
    rcases execRet_cases h with ⟨hempty, ht⟩ | ⟨n, v, hsp, hslot, ht⟩
    · exact .inr (.inr (.inr (.inr (.inl ⟨rfl, hempty, ht⟩))))
    · exact .inr (.inr (.inr (.inr (.inr ⟨n, v, rfl, hsp, hslot, ht⟩))))

/-- A step that answers a next state is idle, a failed fetch, an unknown word or the meaning of the fetched instruction. -/
theorem step_cases {s t : State} (h : step s = .next t) :
    (s.status ≠ .running ∧ t = s) ∨
    (s.status = .running ∧ fetch s = none ∧ t = outOfBoundsFetch s) ∨
    (∃ w, s.status = .running ∧ fetch s = some w ∧ decodeWord w = none ∧ t = unknownOpcode s w) ∨
    (∃ w i, s.status = .running ∧ fetch s = some w ∧ decodeWord w = some i ∧ exec i s = .next t) := by
  unfold step at h
  split at h
  · split at h
    · cases h
      exact .inr (.inl ⟨‹_›, ‹_›, rfl⟩)
    · rename_i hs _ w hw
      split at h
      · rename_i i hi
        exact .inr (.inr (.inr ⟨w, i, hs, hw, hi, h⟩))
      · rename_i hd
        cases h
        exact .inr (.inr (.inl ⟨w, hs, hw, hd, rfl⟩))
  · cases h
    exact .inl ⟨by simp_all, rfl⟩
  · cases h
    exact .inl ⟨by simp_all, rfl⟩

/-- A host transaction that is accepted is one of these. -/
theorem Session.apply_cases {c d : Session} {t : Transaction} (h : c.apply t = .next d) :
    (∃ m n k, t = .reset m n ∧ Config.ofParameters m n 0 = some k ∧ d = { machine := State.construct k, phase := .loading }) ∨
    (∃ o bs, t = .loadBytes o bs ∧ c.phase = .loading ∧ o + bs.length ≤ c.machine.memSize.val ∧
      d = { c with machine := c.machine.writeBytes o bs }) ∨
    (∃ i v, t = .setReg i v ∧ c.phase = .loading ∧ d = { c with machine := c.machine.setReg i v }) ∨
    (∃ a, t = .setStart a ∧ c.phase = .loading ∧ d = { c with machine := c.machine.setPc a }) ∨
    (∃ u, t = .step ∧ c.phase ≠ .terminal ∧ step c.machine = .next u ∧ d = { machine := u, phase := phaseAfterStep u }) := by
  cases t with
  | reset m n =>
    simp only [Session.apply, hostReset] at h
    split at h
    · cases h
      exact .inl ⟨m, n, _, rfl, ‹_›, rfl⟩
    · cases h
  | loadBytes o bs =>
    simp only [Session.apply, hostLoadBytes] at h
    split at h
    · split at h
      · cases h
        exact .inr (.inl ⟨o, bs, rfl, ‹_›, ‹_›, rfl⟩)
      · cases h
    all_goals cases h
  | setReg i v =>
    simp only [Session.apply, hostSetReg] at h
    split at h
    · cases h
      exact .inr (.inr (.inl ⟨i, v, rfl, ‹_›, rfl⟩))
    all_goals cases h
  | setStart a =>
    simp only [Session.apply, hostSetStart] at h
    split at h
    · cases h
      exact .inr (.inr (.inr (.inl ⟨a, rfl, ‹_›, rfl⟩)))
    all_goals cases h
  | step =>
    simp only [Session.apply, hostStep] at h
    split at h
    · cases h
    all_goals
      split at h
      · cases h
        exact .inr (.inr (.inr (.inr ⟨_, rfl, by simp_all, ‹_›, rfl⟩)))
      all_goals cases h

end Sys2Proof.Machine
end

