-- ==== Sys2Proof/Laws/PerInstr.lean ====
section
/-! SUPPORT. Statements about every instruction as syntax, one lemma per constructor. -/

namespace Sys2Proof.Laws.EncodingMatchesRow

/-- The instruction's operands pass the check, and its word matches the one row of the table with its mnemonic, whose fixed
bits are those of 30_encoding.md R85. -/
def Statement (i : Instr) : Prop :=
  i.wellFormed = true ∧ ∃ r ∈ opcodeTable, r.mnemonic = i.mnemonic ∧ r.matches (encode i) = true

theorem halt : Statement .halt := ⟨rfl, _, List.mem_cons_self, rfl, rfl⟩

theorem ret : Statement .ret := ⟨rfl, _, List.mem_cons_of_mem _ List.mem_cons_self, rfl, rfl⟩

theorem call (nnn : Addr12) : Statement (.call nnn) := by
  refine ⟨decide_eq_true nnn.isLt, { mnemonic := "CALL", pattern := 0x2000, mask := 0xF000 }, by simp [opcodeTable], rfl, ?_⟩
  simp only [OpcodeRow.matches, encode, beq_iff_eq]
  rw [show (0xF000 : Word) = 0xF#4 ++ 0#12 from rfl, BitVec.and_append]
  simp

theorem add (x y : RegIdx) : Statement (.add x y) := by
  refine ⟨by simp [Instr.wellFormed, Instr.listing, Listing.wellFormed, x.isLt, y.isLt], { mnemonic := "ADD", pattern := 0x8004, mask := 0xF00F },
    by simp [opcodeTable], rfl, ?_⟩
  revert x y
  decide

end Sys2Proof.Laws.EncodingMatchesRow
end

