-- ==== Sys2Proof/Laws/Run.lean ====
section
/-! SUPPORT. Runs taken apart step by step, and the induction over a run packaged once. -/

namespace Sys2Proof.Machine

/-- A run whose first step answers a next state goes on from it. -/
theorem run_of_step {n : Nat} {s t : State} (h : step s = .next t) :
    Sys2Proof.core.run (n + 1) s = Sys2Proof.core.run n t := by
  simp only [Host.Core.run]
  rw [show Sys2Proof.core.step s = .next t from h]

/-- The first step of a run that answers a state. -/
theorem run_succ_cases {n : Nat} {s u : State} (h : Sys2Proof.core.run (n + 1) s = .next u) :
    ∃ t, step s = .next t ∧ Sys2Proof.core.run n t = .next u := by
  simp only [Host.Core.run] at h
  split at h
  · exact ⟨_, ‹_›, h⟩
  · cases h
  · cases h

/-- What every step keeps, every run keeps. -/
theorem run_keeps (P : State → Prop) (hstep : ∀ s t, P s → step s = .next t → P t) :
    ∀ (n : Nat) (s t : State), P s → Sys2Proof.core.run n s = .next t → P t
  | 0, _, _, hs, hr => by cases hr; exact hs
  | n + 1, s, t, hs, hr => by
    obtain ⟨u, hu, hrun⟩ := run_succ_cases hr
    exact run_keeps P hstep n u t (hstep s u hs hu) hrun

/-- No step writes memory or the configuration. -/
theorem step_memory_config {s t : State} (h : step s = .next t) :
    t.mem = s.mem ∧ t.memSize = s.memSize ∧ t.stackDepth = s.stackDepth := by
  rcases step_cases h with ⟨-, rfl⟩ | ⟨-, -, rfl⟩ | ⟨w, -, -, -, rfl⟩ | ⟨w, i, -, -, -, hi⟩
  · exact ⟨rfl, rfl, rfl⟩
  · exact ⟨rfl, rfl, rfl⟩
  · exact ⟨rfl, rfl, rfl⟩
  · rcases exec_cases hi with ⟨-, rfl⟩ | ⟨x, y, -, rfl⟩ | ⟨n, -, -, rfl⟩ | ⟨n, -, -, -, rfl⟩ | ⟨-, -, rfl⟩ |
      ⟨n, v, -, -, -, rfl⟩ <;> exact ⟨rfl, rfl, rfl⟩

end Sys2Proof.Machine
end

