-- ==== Sys2Proof/Tests/Slice0.lean ====
section
/-! SUPPORT. Tests on vectors of 95_test_vectors.md (named at each), the smoke test of WellFormed, and for every statement
with hypotheses a witness that meets them. -/

namespace Sys2Proof.Machine.Tests

/-! ### Helpers -/

/-- A small machine: 16 bytes, two slots. -/
def small : State := State.construct { memSize := 16, stackDepth := 2, startPc := 0 }

/-- The default machine with the pc at `a`. -/
def at' (a : Word) : State := State.reset.setPc a

/-- `s` with a word where the next step fetches. -/
def load (w : Nat) (s : State) : State := s.withFetchWord 16 w

/-- A value read off the next state. -/
def after {α : Type} (o : Host.Outcome State Fault Refusal) (f : State → α) : Option α :=
  match o with
  | .next t => some (f t)
  | .fault _ => none
  | .refused _ => none

/-- The conditions of `State.Wf` as a Bool. -/
def shapeOk (s : State) : Bool :=
  s.mem.wf && decide (∀ c ∈ s.mem, c.1 < s.memSize.val) && decide (s.stack.length = s.stackDepth) &&
    decide (s.sp ≤ s.stackDepth) && decide (s.fault.isSome = true ↔ s.status = .faulted)

theorem wf_of_shapeOk {s : State} (h : shapeOk s = true) : s.Wf := by
  simp only [shapeOk, Bool.and_eq_true, decide_eq_true_eq] at h
  exact ⟨h.1.1.1.1, h.1.1.1.2, h.1.1.2, h.1.2, h.2⟩

theorem small_launch : small.Launch := ⟨rfl, rfl, rfl, rfl, rfl, by decide⟩

/-! ### WellFormed: an ill-formed term for each check (30_encoding.md R94) -/

theorem test_call_address_out_of_range : (Listing.call 4096).wellFormed = false ∧ (Listing.call 4095).wellFormed = true := by
  decide
theorem test_add_first_register_out_of_range : (Listing.add 16 0).toInstr = none := by decide
theorem test_add_second_register_out_of_range : (Listing.add 0 16).toInstr = none := by decide

/-! ### Decoding: words written out from the formats (30_encoding.md R82; 95_test_vectors.md 3.1, 3.2) -/

theorem test_decode_halt : decodeWord 0b0000_0000_0000_0000 = some .halt := by decide
theorem test_decode_ret : decodeWord 0b0000_0000_1110_1110 = some .ret := by decide
theorem test_decode_call : decodeWord 0b0010_0001_0000_0010 = some (.call 0x102) := by decide
theorem test_decode_add : decodeWord 0b1000_1010_1011_0100 = some (.add 10 11) := by decide
theorem test_decode_bytes : decodeBytes [0x80, 0x14, 0xFF] = .ok (.add 0 1, [0xFF]) := by decide
theorem test_decode_unknown : decodeBytes [0x12, 0x34] = .error (.unknownOpcode 0x1234) := by decide
theorem test_decode_truncated : decodeBytes [0x80] = .error .truncated := by decide
theorem test_table_word : decodeTableWord 16 0x8AB4 = some (.add 10 11) := by decide

/-! ### One step each -/

/-- H1 -/
theorem test_halt_on_empty_machine :
    after (step State.reset) (fun t => (t.status, t.pc, t.fault)) = some (.halted, 2, none) := by decide
/-- F4: the last slot. -/
theorem test_halt_in_last_slot : after (step (at' 4094)) (fun t => (t.status, t.pc)) = some (.halted, 4096) := by decide
/-- A1 and F1: big-endian fetch, wrap, carry. -/
theorem test_add_carries :
    after (step (load 0x8014 ((State.reset.setReg 0 250).setReg 1 10))) (fun t => (t.reg 0, t.reg 1, t.reg 15, t.pc)) =
      some (4, 10, 1, 2) := by decide
/-- A16: destination 15 keeps the carry. -/
theorem test_add_to_flag :
    after (step (load 0x8F14 ((State.reset.setReg 15 0xF0).setReg 1 0x20))) (fun t => (t.reg 15, t.reg 1)) =
      some (1, 0x20) := by decide
/-- CL2, with sp 0 for 5. -/
theorem test_call_pushes :
    after (step (load 0x2FFF (at' 0x0ABC))) (fun t => (t.readSlot 0, t.sp, t.pc)) = some (some 0x0ABE, 1, 0x0FFF) := by decide
/-- CL5: a full stack. -/
theorem test_call_overflows :
    after (step (load 0x2200 { at' 0x10 with sp := 16 })) (fun t => (t.fault, t.pc, t.sp)) =
      some (some { kind := .stackOverflow, addr := 0x10, word := some 0x2200 }, 0x12, 16) := by decide
/-- RT2: an odd return address. -/
theorem test_ret_pops :
    after (step (load 0x00EE { at' 0x300 with sp := 3, stack := [0x0002, 0x0102, 0x0203] }))
      (fun t => (t.sp, t.pc, t.stack)) = some (2, 0x0203, [0x0002, 0x0102, 0x0203]) := by decide
/-- RT4: a stale slot is not used. -/
theorem test_ret_underflows :
    after (step (load 0x00EE { at' 0x300 with stack := [0x0102] })) (fun t => (t.fault, t.pc, t.sp)) =
      some (some { kind := .stackUnderflow, addr := 0x300, word := some 0x00EE }, 0x302, 0) := by decide
/-- P9 -/
theorem test_unknown_word :
    after (step (load 0x1234 (State.reset.setReg 15 0xAA))) (fun t => (t.fault, t.pc, t.reg 15)) =
      some (some { kind := .unknownOpcode, addr := 0, word := some 0x1234 }, 2, 0xAA) := by decide
/-- F3: an odd pc. -/
theorem test_odd_pc :
    after (step (load 0x8014 (((at' 1).setReg 0 1).setReg 1 2))) (fun t => (t.reg 0, t.pc)) = some (3, 3) := by decide
/-- F5: one byte in bounds is not enough. -/
theorem test_fetch_out_of_bounds :
    after (step (at' 4095)) (fun t => (t.fault, t.pc)) =
      some (some { kind := .outOfBoundsFetch, addr := 0x0FFF, word := none }, 4095) := by decide
/-- Z3: a load that leaves memory is refused whole. -/
theorem test_load_outside :
    Session.apply (.loadBytes 4095 [0x01, 0x02]) { machine := State.reset, phase := .loading } =
      .refused .loadOutsideMemory := by rfl
/-- Writing the unlisted byte removes the entry. -/
theorem test_memory_canonical : Memory.write (Memory.write [] 5 7) 5 0 = [] := by decide

/-! ### Witnesses: for each statement with hypotheses, a state that meets them -/

/-- FetchIsBigEndian, at the last slot; EmptyMachineHalts, both clauses, and LoadedWordIsFetched. -/
theorem witness_fetch_in_bounds :
    (14 : Word).toNat + 2 ≤ small.memSize.val ∧ small.mem.wf = true ∧ small.pc.toNat + 2 ≤ small.memSize.val ∧
      Config.default.startPc.toNat + 2 ≤ Config.default.memSize.val ∧
      ({ Config.default with startPc := 4095 } : Config).memSize.val <
        ({ Config.default with startPc := 4095 } : Config).startPc.toNat + 2 := by decide

/-- OutOfBoundsFetchFaults, at the first address out of bounds. -/
theorem witness_OutOfBoundsFetchFaults :
    (small.setPc 15).status = .running ∧ (small.setPc 15).memSize.val < (small.setPc 15).pc.toNat + 2 := by decide

/-- RunsKeepMemory, with two steps: an ADD and a HALT. -/
theorem witness_RunsKeepMemory : ∃ t, Reaches (load 0x8014 small) t ∧ t.status = .halted := ⟨_, ⟨2, rfl⟩, rfl⟩

/-- StepRunsTheDecodedInstruction, both clauses. -/
theorem witness_StepRunsTheDecodedInstruction :
    (load 0x8014 small).status = .running ∧ fetch (load 0x8014 small) = some 0x8014 ∧
      decodeWord 0x8014 = some (.add 0 1) ∧ fetch (load 0x8014 small) = some (encode (.add 0 1)) := by decide

/-- UnknownWordFaults. -/
theorem witness_UnknownWordFaults :
    (load 0x1234 small).status = .running ∧ fetch (load 0x1234 small) = some 0x1234 ∧ decodeWord 0x1234 = none := by decide

/-- TerminalStatesStay. -/
theorem witness_TerminalStatesStay : (small.setStatus .halted).status ≠ .running := by decide

/-- StepOutcomesFollowTheTable: a state for each row. -/
theorem witness_StepOutcomesFollowTheTable :
    (shapeOk (small.setPc 15) ∧ (small.setPc 15).memSize.val < (small.setPc 15).pc.toNat + 2) ∧
    (shapeOk small ∧ fetch small = some 0x0000) ∧
    (shapeOk (load 0x8FF4 small) ∧ fetch (load 0x8FF4 small) = some 0x8FF4 ∧ (0x8FF4 : Word) &&& 0xF00F = 0x8004) ∧
    (shapeOk (load 0x2FFF { small with sp := 1 }) ∧ fetch (load 0x2FFF { small with sp := 1 }) = some 0x2FFF ∧
      (0x2FFF : Word) &&& 0xF000 = 0x2000) ∧
    (shapeOk (load 0x2000 { small with sp := 2 }) ∧ fetch (load 0x2000 { small with sp := 2 }) = some 0x2000) ∧
    (shapeOk (load 0x00EE { small with sp := 1 }) ∧ fetch (load 0x00EE { small with sp := 1 }) = some 0x00EE) ∧
    (shapeOk (load 0x00EE small) ∧ fetch (load 0x00EE small) = some 0x00EE) ∧
    (shapeOk (load 0x8015 small) ∧ fetch (load 0x8015 small) = some 0x8015 ∧ ∀ r ∈ opcodeTable, r.matches 0x8015 = false) := by
  decide

/-- FlagHoldsTheLastCarry: an ADD to register 15 that leaves 1, and a step that is no ADD. -/
theorem witness_FlagHoldsTheLastCarry :
    (fetch (load 0x8FF4 (small.setReg 15 0x80)) = some 0x8FF4 ∧ decodeWord 0x8FF4 = some (.add 15 15) ∧
      (load 0x8FF4 (small.setReg 15 0x80)).status = .running ∧
      after (step (load 0x8FF4 (small.setReg 15 0x80))) (·.reg 15) = some 1) ∧
    (¬ ∃ w x y, small.status = .running ∧ fetch small = some w ∧ decodeWord w = some (.add x y)) ∧
      (small.reg 15).toNat ≤ 1 ∧ ∃ t, step small = .next t := by
  refine ⟨by decide, ?_, by decide, _, rfl⟩
  rintro ⟨w, x, y, -, hf, hd⟩
  cases hf
  cases hd

/-- OnlyTheHaltWordHalts, with each side true. -/
theorem witness_OnlyTheHaltWordHalts :
    small.status = .running ∧ after (step small) (·.status) = some .halted ∧
      (load 0x8014 small).status = .running ∧ after (step (load 0x8014 small)) (·.status) = some .running := by decide

/-- EveryRunEndsWithinTheBound, StepFromWfAnswersNext and StepKeepsWf, on a step that pushes. -/
theorem witness_Wf : (load 0x2004 small).Wf ∧ ∃ t, step (load 0x2004 small) = .next t ∧ t.sp = 1 :=
  ⟨wf_of_shapeOk (by decide), _, rfl, rfl⟩

/-- LaunchStatesMeetTheInvariants and RunsEndWellOrWithARecord: a launch state whose run ends well, and one whose run faults. -/
theorem witness_RunsEndWellOrWithARecord :
    (small.Launch ∧ ∃ t, RunEndsIn small t ∧ EndedWell t) ∧
    ((small.setPc 15).Launch ∧ ∃ t, RunEndsIn (small.setPc 15) t ∧ t.status = .faulted) :=
  ⟨⟨small_launch, _, ⟨⟨1, rfl⟩, by decide⟩, rfl⟩,
    ⟨⟨rfl, rfl, rfl, rfl, rfl, by decide⟩, _, ⟨⟨1, rfl⟩, by decide⟩, rfl⟩⟩

/-- RunTransactionHasOneEnd. -/
theorem witness_RunTransactionHasOneEnd :
    ({ machine := small, phase := .loading } : Session).phase = .loading ∧ small.Launch := ⟨rfl, small_launch⟩

/-- AddIsUnsignedWithCarryOut, AddReadsBothSourcesFirst and AddCommutesInResult: register numbers that meet them. -/
theorem witness_add_registers : (14 : RegIdx) ≠ 15 ∧ (0 : RegIdx) ≠ 14 ∧ (0 : RegIdx) ≠ 15 := by decide

/-- OnlyAddChangesRegisters: a step that changes register 0. -/
theorem witness_OnlyAddChangesRegisters :
    ∃ t, step (load 0x8014 (small.setReg 1 3)) = .next t ∧ t.reg 0 ≠ (load 0x8014 (small.setReg 1 3)).reg 0 :=
  ⟨_, rfl, by decide⟩

/-- CallPushesAndJumps, on the last free slot. -/
theorem witness_CallPushesAndJumps :
    ({ small with sp := 1 } : State).sp < small.stackDepth ∧ small.stack.length = small.stackDepth := by decide

/-- CallOnAFullStackFaults and RetOnAnEmptyStackFaults. -/
theorem witness_stack_faults : ({ small with sp := 2 } : State).sp = small.stackDepth ∧ small.sp = 0 := by decide

/-- RetPopsAndJumps. -/
theorem witness_RetPopsAndJumps :
    ({ small with sp := 1 } : State).sp = 0 + 1 ∧ ({ small with sp := 1 } : State).readSlot 0 = some 0 := by decide

/-- MissingSlotStops, both clauses: states of the wrong shape. -/
theorem witness_MissingSlotStops :
    (({ small with stack := [] } : State).sp ≠ small.stackDepth ∧
      ({ small with stack := [] } : State).stack.length ≤ ({ small with stack := [] } : State).sp) ∧
    (({ small with stack := [], sp := 1 } : State).sp = 0 + 1 ∧
      ({ small with stack := [], sp := 1 } : State).readSlot 0 = none) := by decide

/-- HaltRetCallFrame: each instruction, with and without its fault. -/
theorem witness_HaltRetCallFrame :
    (∃ t, exec .halt small = .next t) ∧ (∃ t, exec .ret { small with sp := 1 } = .next t) ∧ (∃ t, exec .ret small = .next t) ∧
      (∃ t, exec (.call 4) small = .next t) ∧ ∃ t, exec (.call 4) { small with sp := 2 } = .next t :=
  ⟨⟨_, rfl⟩, ⟨_, rfl⟩, ⟨_, rfl⟩, ⟨_, rfl⟩, ⟨_, rfl⟩⟩

/-- MatchedCallsReturn, both clauses, filling the stack. -/
theorem witness_MatchedCallsReturn :
    small.stack.length = small.stackDepth ∧
      small.sp + (Matched.call 4 (.call 8 (.add 0 1 .done) .done) .done).depth ≤ small.stackDepth ∧
      ([4, 8] : List Addr12) ≠ [] ∧ small.sp + ([4, 8] : List Addr12).length ≤ small.stackDepth := by decide

/-- CapacityPlusOneCallsOverflow. -/
theorem witness_CapacityPlusOneCallsOverflow :
    small.stack.length = small.stackDepth ∧ small.sp + ([4, 8] : List Addr12).length = small.stackDepth := by decide

/-- OnlyCallChangesSlots: a step that changes slot 0. -/
theorem witness_OnlyCallChangesSlots :
    ∃ t, step (load 0x2004 small) = .next t ∧ t.readSlot 0 ≠ (load 0x2004 small).readSlot 0 := ⟨_, rfl, by decide⟩

/-- RegistersNeverSteerControl: two machines with different registers, two steps. -/
theorem witness_RegistersNeverSteerControl :
    (load 0x8014 small).SameButRegs ((load 0x8014 small).setReg 1 255) ∧
      ∃ t, Sys2Proof.core.run 2 (load 0x8014 small) = .next t := ⟨rfl, _, rfl⟩

/-- StepKeepsReturnsFollowCalls: after a CALL, one live slot. -/
theorem witness_StepKeepsReturnsFollowCalls :
    ∃ s t : State, s.Wf ∧ s.ReturnsFollowCalls ∧ s.sp = 1 ∧ step s = .next t := by
  refine ⟨{ load 0x2004 small with pc := 4, sp := 1, stack := [2, 0] }, _, wf_of_shapeOk (by decide), ?_, rfl, rfl⟩
  intro i v hi hv
  have h0 : i = 0 := Nat.lt_one_iff.1 hi
  subst h0
  exact ⟨0, 0x2004, 4, by cases hv; rfl, by decide, by decide⟩

/-- StepKeepsAddressesBounded: one live slot at the bound. -/
theorem witness_StepKeepsAddressesBounded :
    ∃ s t : State, s.AddressesBounded 0 ∧ s.sp = 1 ∧ step s = .next t := by
  refine ⟨{ small with sp := 1, stack := [16, 0] }, _, ⟨by decide, ?_⟩, rfl, rfl⟩
  intro i v hi hv
  have h0 : i = 0 := Nat.lt_one_iff.1 hi
  subst h0
  cases hv
  decide

/-- StepKeepsAddressesBounded, its second clause: the last fetch of the largest memory. -/
theorem witness_StepKeepsAddressesBounded_last_fetch :
    (State.construct { memSize := 65535, stackDepth := 1, startPc := 65533 }).status = .running ∧
      fetch (State.construct { memSize := 65535, stackDepth := 1, startPc := 65533 }) = some 0x0000 := by decide

/-- StepKeepsFaultRecordAgreement and FaultsArePrecise: a step that faults. -/
theorem witness_fault_record :
    (load 0x1234 small).FaultRecordAgrees ∧ (load 0x1234 small).Wf ∧ (load 0x1234 small).status = .running ∧
      ∃ t, step (load 0x1234 small) = .next t ∧ t.status = .faulted := by
  refine ⟨?_, wf_of_shapeOk (by decide), rfl, _, rfl, rfl⟩
  intro r hr
  cases hr

/-- HostResetStartsOver: the bounds of the legal ranges, and sizes outside them. -/
theorem witness_HostResetStartsOver :
    (2 ≤ 2 ∧ 2 ≤ 65535 ∧ 1 ≤ 1) ∧ (2 ≤ 65535 ∧ 65535 ≤ 65535) ∧ (1 < 2 ∨ 65535 < 1 ∨ 1 = 0) ∧
      (65536 < 2 ∨ 65535 < 65536 ∨ 1 = 0) ∧ (4096 < 2 ∨ 65535 < 4096 ∨ 0 = 0) := by decide

/-- LoadBytesStoresExactly, both clauses at the end of memory; SetRegAndSetStartWriteOneThing. -/
theorem witness_LoadBytesStoresExactly :
    ({ machine := small, phase := .loading } : Session).phase = .loading ∧ small.mem.wf = true ∧
      14 + ([0x80, 0x14] : List Byte).length ≤ small.memSize.val ∧
      small.memSize.val < 15 + ([0x80, 0x14] : List Byte).length := by decide

/-- HostWritesOnlyWhileLoading, and its last clause. -/
theorem witness_HostWritesOnlyWhileLoading :
    ({ machine := small, phase := .running } : Session).phase ≠ .loading ∧
      ({ machine := small, phase := .terminal } : Session).phase = .terminal := by decide

/-- LoadingMachinesAreLaunchStates: a load and a register. -/
theorem witness_LoadingMachinesAreLaunchStates :
    ∃ d : Session, Session.AppliesTo [.loadBytes 0 [0x80, 0x14], .setReg 0 5] { machine := small, phase := .loading } d ∧
      d.phase = .loading :=
  ⟨_, .cons rfl (.cons rfl (.nil _)), rfl⟩

/-- TransactionsKeepWfAndPhase: a step that ends the run. -/
theorem witness_TransactionsKeepWfAndPhase :
    small.Wf ∧ (Phase.loading = .terminal ↔ small.status ≠ .running) ∧
      ∃ d, Session.apply .step { machine := small, phase := .loading } = .next d ∧ d.phase = .terminal :=
  ⟨wf_of_shapeOk (by decide), by decide, _, rfl, rfl⟩

/-- EncodeDecodeRoundTrip. -/
theorem witness_EncodeDecodeRoundTrip : decodeWord 0x2FFF = some (.call 0xFFF) := by decide

end Sys2Proof.Machine.Tests
end

section
/-! PROOF. What one step can do, with a name for each outcome, and what that means for the registers, the stack, the pc, the
status and the fault record. The invariants of 10_state.md are read off these facts. -/

namespace Sys2Proof.Machine

/-! ### The step, forwards and backwards -/

/-- The next step from `s` executes the instruction `i` (40_sequencer_halt.md R110). -/
def State.Executes (s : State) (i : Instr) : Prop :=
  ∃ w, s.status = .running ∧ fetch s = some w ∧ decodeWord w = some i

theorem step_of_executes {s : State} {i : Instr} (h : s.Executes i) : step s = exec i s := by
  obtain ⟨w, hs, hf, hd⟩ := h
  simp [step, hs, hf, hd]

theorem step_of_fetch_none {s : State} (hs : s.status = .running) (hf : fetch s = none) :
    step s = .next (outOfBoundsFetch s) := by
  simp [step, hs, hf]

theorem exec_of_step {s t : State} {i : Instr} (he : s.Executes i) (h : step s = .next t) : exec i s = .next t :=
  step_of_executes he ▸ h

theorem State.Executes.exists_fetch {s : State} {i : Instr} (h : s.Executes i) : ∃ w, fetch s = some w := by
  obtain ⟨w, -, hf, -⟩ := h
  exact ⟨w, hf⟩

/-- After a successful fetch the advanced pc is within MEM_SIZE (10_state.md R27). -/
theorem pc_add_two_le_of_fetch {s : State} {w : Word} (h : fetch s = some w) : (s.pc + 2).toNat ≤ s.memSize.val :=
  toNat_add_two_of_fetch h ▸ fetchAt_inside h

/-- The states a step from `s` can answer: one constructor per row of 40_sequencer_halt.md R115, and the idle step. -/
inductive StepOutcome (s : State) : State → Prop
  | idle (hs : s.status ≠ .running) : StepOutcome s s
  | badFetch (hs : s.status = .running) (hf : fetch s = none) : StepOutcome s (outOfBoundsFetch s)
  | unknown (w : Word) (hs : s.status = .running) (hf : fetch s = some w) (hd : decodeWord w = none) :
      StepOutcome s (unknownOpcode s w)
  | halt (he : s.Executes .halt) : StepOutcome s (s.advance.setStatus .halted)
  | add (x y : RegIdx) (he : s.Executes (.add x y)) :
      StepOutcome s ((s.advance.setReg x (sumByte (s.reg x) (s.reg y))).setReg flagReg (carryByte (s.reg x) (s.reg y)))
  | callFull (nnn : Addr12) (he : s.Executes (.call nnn)) (hfull : s.sp = s.stackDepth) :
      StepOutcome s (takeFault s.advance .stackOverflow s.pc (some (encode (.call nnn))))
  | callPush (nnn : Addr12) (he : s.Executes (.call nnn)) (hslot : s.sp < s.stack.length) :
      StepOutcome s { s with stack := s.stack.set s.sp (s.pc + 2), sp := s.sp + 1, pc := callTarget nnn }
  | retEmpty (he : s.Executes .ret) (hempty : s.sp = 0) :
      StepOutcome s (takeFault s.advance .stackUnderflow s.pc (some (encode .ret)))
  | retPop (n : Nat) (v : Word) (he : s.Executes .ret) (hsp : s.sp = n + 1) (hslot : s.stack[n]? = some v) :
      StepOutcome s { s with sp := n, pc := v }

theorem stepOutcome_of_step {s t : State} (h : step s = .next t) : StepOutcome s t := by
  rcases step_cases h with ⟨hs, rfl⟩ | ⟨hs, hf, rfl⟩ | ⟨w, hs, hf, hd, rfl⟩ | ⟨w, i, hs, hf, hd, hi⟩
  · exact .idle hs
  · exact .badFetch hs hf
  · exact .unknown w hs hf hd
  · have he : s.Executes i := ⟨w, hs, hf, hd⟩
    rcases exec_cases hi with ⟨rfl, rfl⟩ | ⟨x, y, rfl, rfl⟩ | ⟨nnn, rfl, hfull, rfl⟩ | ⟨nnn, rfl, -, hslot, rfl⟩ |
      ⟨rfl, hempty, rfl⟩ | ⟨n, v, rfl, hsp, hslot, rfl⟩
    · exact .halt he
    · exact .add x y he
    · exact .callFull nnn he hfull
    · exact .callPush nnn he hslot
    · exact .retEmpty he hempty
    · exact .retPop n v he hsp hslot

/-! ### Registers -/

/-- The flag after an ADD is the carry, whatever its destination (41_add.md R130; x = 15: decision D10). -/
theorem reg_flag_of_exec_add {x y : RegIdx} {s t : State} (h : exec (.add x y) s = .next t) :
    t.reg 15 = carryByte (s.reg x) (s.reg y) := by
  rw [execAdd_cases h, ← flagReg_eq, State.reg_setReg_same]

theorem reg_other_of_exec_add {x y r : RegIdx} {s t : State} (h : exec (.add x y) s = .next t) (hx : r ≠ x)
    (hf : r ≠ 15) : t.reg r = s.reg r := by
  rw [execAdd_cases h, State.reg_setReg_other _ _ _ _ (flagReg_eq ▸ hf), State.reg_setReg_other _ _ _ _ hx,
    State.reg_advance]

/-- A step that executes no ADD leaves the register file as it was. -/
theorem step_regs_or_add {s t : State} (h : step s = .next t) : t.regs = s.regs ∨ ∃ x y, s.Executes (.add x y) := by
  cases stepOutcome_of_step h with
  | add x y he => exact .inr ⟨x, y, he⟩
  | _ => exact .inl rfl

theorem carryByte_toNat_le_one (a b : Byte) : (carryByte a b).toNat ≤ 1 := by
  rw [carryByte_toNat]
  split <;> omega

/-! ### The stack -/

/-- A slot after a step is the slot before it, live only if it was live, or the one a CALL has just pushed. -/
theorem step_readSlot_cases {s t : State} (h : step s = .next t) (k : Nat) :
    (t.readSlot k = s.readSlot k ∧ (k < t.sp → k < s.sp)) ∨
    ((∃ nnn, s.Executes (.call nnn)) ∧ k = s.sp ∧ t.readSlot k = some (s.pc + 2)) := by
  cases stepOutcome_of_step h with
  | callPush nnn he hslot =>
    by_cases hk : k = s.sp
    · exact .inr ⟨⟨nnn, he⟩, hk, by simp [State.readSlot, hk, hslot]⟩
    · refine .inl ⟨by simp [State.readSlot, Ne.symm hk], fun hlive => ?_⟩
      exact Nat.lt_of_le_of_ne (Nat.le_of_lt_succ hlive) hk
  | retPop n v he hsp hslot => exact .inl ⟨rfl, fun hlive => hsp ▸ Nat.lt_succ_of_lt hlive⟩
  | _ => exact .inl ⟨rfl, id⟩

/-- A live slot after a step was live before it, or holds the address after the CALL that was executed. -/
theorem step_liveSlot_cases {s t : State} {k : Nat} {v : Word} (h : step s = .next t) (hk : k < t.sp)
    (hv : t.readSlot k = some v) :
    (k < s.sp ∧ s.readSlot k = some v) ∨ ((∃ nnn, s.Executes (.call nnn)) ∧ v = s.pc + 2) := by
  rcases step_readSlot_cases h k with ⟨hsame, hlive⟩ | ⟨hcall, -, hnew⟩
  · exact .inl ⟨hlive hk, hsame ▸ hv⟩
  · exact .inr ⟨hcall, Option.some.inj (hv.symm.trans hnew)⟩

theorem step_stack_length {s t : State} (h : step s = .next t) : t.stack.length = s.stack.length := by
  cases stepOutcome_of_step h with
  | callPush nnn he hslot => exact List.length_set
  | _ => rfl

/-- A step keeps sp within the stack list: a CALL pushes only where there is a slot. -/
theorem step_sp_le_length {s t : State} (h : step s = .next t) (hsp : s.sp ≤ s.stack.length) :
    t.sp ≤ s.stack.length := by
  cases stepOutcome_of_step h with
  | callPush nnn he hslot => exact hslot
  | retPop n v he hpop hslot => exact (Nat.le_succ n).trans (hpop.symm.le.trans hsp)
  | _ => exact hsp

theorem pushSlot_eq_none {s : State} {v : Word} (h : s.stack.length ≤ s.sp) : pushSlot s v = none :=
  if_neg (Nat.not_lt.2 h)

theorem popSlot_eq_none {s : State} {n : Nat} (hsp : s.sp = n + 1) (h : s.readSlot n = none) : popSlot s = none := by
  simp only [State.readSlot] at h
  simp [popSlot, hsp, h]

/-! ### The pc -/

/-- Where the pc comes from: it stays, it advances over a fetched word, it is a CALL's target or a popped return address. -/
theorem step_pc_cases {s t : State} (h : step s = .next t) :
    t.pc = s.pc ∨ (t.pc = s.pc + 2 ∧ (∃ w, fetch s = some w)) ∨ (∃ nnn, t.pc = callTarget nnn) ∨
      ∃ n, n < s.sp ∧ s.readSlot n = some t.pc := by
  cases stepOutcome_of_step h with
  | idle hs => exact .inl rfl
  | badFetch hs hf => exact .inl rfl
  | unknown w hs hf hd => exact .inr (.inl ⟨rfl, w, hf⟩)
  | halt he => exact .inr (.inl ⟨rfl, he.exists_fetch⟩)
  | add x y he => exact .inr (.inl ⟨rfl, he.exists_fetch⟩)
  | callFull nnn he hfull => exact .inr (.inl ⟨rfl, he.exists_fetch⟩)
  | callPush nnn he hslot => exact .inr (.inr (.inl ⟨nnn, rfl⟩))
  | retEmpty he hempty => exact .inr (.inl ⟨rfl, he.exists_fetch⟩)
  | retPop n v he hsp hslot => exact .inr (.inr (.inr ⟨n, hsp ▸ Nat.lt_succ_self n, hslot⟩))

theorem callTarget_toNat_le (nnn : Addr12) : (callTarget nnn).toNat ≤ 4095 := by
  have hlt := nnn.isLt
  simp only [callTarget, BitVec.toNat_setWidth]
  omega

/-! ### The status and the fault record -/

/-- Every step that faults writes the record, and no other step changes record or status but for HALT. -/
theorem step_fault_iff_faulted {s t : State} (h : step s = .next t)
    (hs : s.fault.isSome = true ↔ s.status = .faulted) : t.fault.isSome = true ↔ t.status = .faulted := by
  cases stepOutcome_of_step h with
  | idle _ | add _ _ _ | callPush _ _ _ | retPop _ _ _ _ _ => exact hs
  | badFetch _ _ | unknown _ _ _ _ | callFull _ _ _ | retEmpty _ _ => simp
  | halt he =>
    obtain ⟨w, hrun, -, -⟩ := he
    simp [hs, hrun]

/-- From a Running state only an executed HALT leaves the status Halted. -/
theorem executes_halt_of_step_halted {s t : State} (hs : s.status = .running) (h : step s = .next t)
    (ht : t.status = .halted) : s.Executes .halt := by
  cases stepOutcome_of_step h with
  | halt he => exact he
  | idle _ | add _ _ _ | callPush _ _ _ | retPop _ _ _ _ _ => exact absurd (hs.symm.trans ht) (by decide)
  | badFetch _ _ | unknown _ _ _ _ | callFull _ _ _ | retEmpty _ _ => exact absurd ht (by simp)

theorem decodeWord_zero : decodeWord 0x0000 = some .halt := by decide

/-- No word but 0x0000 is HALT: its four nibbles are all 0 (30_encoding.md R86). -/
theorem eq_zero_of_decodeWord_halt {w : Word} (h : decodeWord w = some .halt) : w = 0x0000 := by
  unfold decodeWord dispatch at h
  split at h
  · rename_i hz
    obtain ⟨hcls, hx, hy, hsub⟩ := hz
    simp only [decodeFields, ← BitVec.toNat_inj, BitVec.extractLsb'_toNat, Nat.shiftRight_eq_div_pow] at hcls hx hy hsub
    bv_omega
  · split_ifs at h <;> cases h

/-! ### Reset -/

/-- Every fetch in bounds of an empty memory answers 0x0000 (10_state.md R36). -/
theorem fetch_construct {c : Config} (h : c.startPc.toNat + 2 ≤ c.memSize.val) :
    fetch (State.construct c) = some 0x0000 := by
  simp [fetch, fetchAt, h, Memory.read_nil, Memory.unlistedByte, wordOfBytes]

end Sys2Proof.Machine
end

section
/-! PROOF. The statements of 10_state.md. -/

namespace Sys2Proof.Machine

/-! ### Invariants -/

/-- Settles O37: each field of the shape is kept by one fact about the step. -/
theorem stepKeepsWf : Obligations.StepKeepsWf := by
  intro s t hs h
  obtain ⟨hmem, hsize, hdepth⟩ := step_memory_config h
  refine ⟨⟨?_, ?_, ?_, ?_, ?_⟩, hsize, hdepth⟩
  · exact hmem ▸ hs.memory_canonical
  · rw [hmem, hsize]
    exact hs.memory_inside
  · rw [step_stack_length h, hdepth, hs.stack_length]
  · have hle : s.sp ≤ s.stack.length := hs.stack_length.symm ▸ hs.sp_le_depth
    rw [hdepth, ← hs.stack_length]
    exact step_sp_le_length h hle
  · exact step_fault_iff_faulted h hs.fault_iff_faulted

/-- Settles O38: a live slot is an old one, or the CALL just executed stands right before the address in it. -/
theorem stepKeepsReturnsFollowCalls : Obligations.StepKeepsReturnsFollowCalls := by
  intro s t _ hs h k v hk hv
  obtain ⟨hmem, hsize, -⟩ := step_memory_config h
  simp only [fetchAt_congr hmem hsize]
  rcases step_liveSlot_cases h hk hv with ⟨hlive, hold⟩ | ⟨⟨nnn, w, -, hf, hd⟩, hnew⟩
  · exact hs k v hlive hold
  · exact ⟨s.pc, w, nnn, hnew, hf, hd⟩

/-- Settles O39: the pc stays, passes a fetched word, is a 12-bit target or was a live return address; a new return address
follows a fetched word. -/
theorem stepKeepsAddressesBounded : Obligations.StepKeepsAddressesBounded := by
  refine ⟨fun start s t hs h => ?_, fun s w _ hf => toNat_add_two_of_fetch hf⟩
  obtain ⟨hpc, hslots⟩ := hs
  obtain ⟨-, hsize, -⟩ := step_memory_config h
  refine ⟨?_, fun k v hk hv => ?_⟩
  · rw [hsize]
    rcases step_pc_cases h with hsame | ⟨hadv, w, hf⟩ | ⟨nnn, hcall⟩ | ⟨n, hlive, hret⟩
    · exact hsame ▸ hpc
    · exact le_max_of_le_left (hadv ▸ pc_add_two_le_of_fetch hf)
    · exact le_max_of_le_right (le_max_of_le_left (hcall ▸ callTarget_toNat_le nnn))
    · exact le_max_of_le_left (hslots n t.pc hlive hret)
  · rw [hsize]
    rcases step_liveSlot_cases h hk hv with ⟨hlive, hold⟩ | ⟨⟨nnn, w, -, hf, -⟩, hnew⟩
    · exact hslots k v hlive hold
    · exact hnew ▸ pc_add_two_le_of_fetch hf

/-! ### What only one instruction does -/

/-- Settles O15: only an executed HALT halts, and HALT is the word 0x0000. -/
theorem onlyTheHaltWordHalts : Obligations.OnlyTheHaltWordHalts := by
  intro s t hs h
  constructor
  · intro ht
    obtain ⟨w, -, hf, hd⟩ := executes_halt_of_step_halted hs h ht
    exact eq_zero_of_decodeWord_halt hd ▸ hf
  · intro hf
    have hexec : exec .halt s = .next t := exec_of_step ⟨_, hs, hf, decodeWord_zero⟩ h
    rw [execHalt_cases hexec, State.setStatus_status]

/-- Settles O24: an ADD writes the carry last, and no other step writes a register. -/
theorem flagHoldsTheLastCarry : Obligations.FlagHoldsTheLastCarry := by
  intro s t h
  refine ⟨fun w x y hs hf hd => ?_, fun hno => ?_, fun hle => ?_⟩
  · rw [reg_flag_of_exec_add (exec_of_step ⟨w, hs, hf, hd⟩ h), carryByte_toNat]
  · rcases step_regs_or_add h with hregs | ⟨x, y, w, hadd⟩
    · exact State.reg_congr hregs 15
    · exact absurd ⟨w, x, y, hadd⟩ hno
  · rcases step_regs_or_add h with hregs | ⟨x, y, hadd⟩
    · exact State.reg_congr hregs 15 ▸ hle
    · exact reg_flag_of_exec_add (exec_of_step hadd h) ▸ carryByte_toNat_le_one _ _

/-- Settles O25: a step that is no ADD leaves the register file, and an ADD every other register. -/
theorem onlyAddChangesRegisters : Obligations.OnlyAddChangesRegisters := by
  intro s t r h hne
  rcases step_regs_or_add h with hregs | ⟨x, y, hadd⟩
  · exact absurd (State.reg_congr hregs r) hne
  · have hr : r = x ∨ r = 15 := by
      by_contra hc
      obtain ⟨hx, hf⟩ := not_or.1 hc
      exact hne (reg_other_of_exec_add (exec_of_step hadd h) hx hf)
    obtain ⟨w, hs, hf, hd⟩ := hadd
    exact ⟨w, x, y, hs, hf, hd, hr⟩

/-- Settles O34: a slot that a step changes is the one a CALL has just pushed. -/
theorem onlyCallChangesSlots : Obligations.OnlyCallChangesSlots := by
  intro s t k h hne
  rcases step_readSlot_cases h k with ⟨hsame, -⟩ | ⟨⟨nnn, w, hs, hf, hd⟩, hk, hnew⟩
  · exact absurd hsame hne
  · exact ⟨w, nnn, hs, hf, hd, hk, hnew⟩

/-- Settles O30: where the slot is missing, the push and the pop answer nothing. -/
theorem missingSlotStops : Obligations.MissingSlotStops := by
  refine ⟨fun nnn s hsp hlen => ?_, fun s n hsp hslot => ?_⟩
  · have hpush : ∀ v, pushSlot s.advance v = none := fun _ => pushSlot_eq_none hlen
    simp [exec, execCall, hsp, hpush]
  · have hpop : popSlot s.advance = none := popSlot_eq_none hsp hslot
    simp [exec, execRet, hsp, hpop]

/-! ### Reset -/

/-- Settles O44: each read-back of the constructed state, computed. -/
theorem resetZeroesEverything : Obligations.ResetZeroesEverything := by
  intro c
  refine ⟨fun a => ?_, fun r => ?_, fun k => ?_, rfl, rfl, rfl, rfl, rfl⟩
  · rfl
  · simp [State.reg]
  · simp [State.readSlot, List.getElem?_replicate]

/-- Settles O45: an empty memory answers HALT's word wherever it answers one. -/
theorem emptyMachineHalts : Obligations.EmptyMachineHalts := by
  intro c
  constructor
  · intro hin
    have he : (State.construct c).Executes .halt := ⟨_, rfl, fetch_construct hin, decodeWord_zero⟩
    rw [step_of_executes he]
    rfl
  · intro hout
    have hf : fetch (State.construct c) = none := fetchAt_eq_none.2 hout
    exact ⟨_, step_of_fetch_none rfl hf, rfl, rfl⟩

end Sys2Proof.Machine
end

section
/-! PROOF. The statements of 20_memory.md, and the rules they rest on: what a byte read answers after a byte or a word
has been stored, and the fetch as two byte reads. -/

namespace Sys2Proof.Machine

/-! ### Byte reads -/

theorem State.readByte_of_lt {s : State} {a : Nat} (h : a < s.memSize.val) : s.readByte a = some (s.mem.read a) :=
  if_pos h

/-- A byte read depends on memory and its size alone. -/
theorem State.readByte_congr {s t : State} (hm : t.mem = s.mem) (hs : t.memSize = s.memSize) (a : Nat) :
    t.readByte a = s.readByte a := by
  simp [State.readByte, hm, hs]

theorem State.readByte_writeByte_same {s : State} {a : Nat} (v : Byte) (hwf : s.mem.wf = true)
    (ha : a < s.memSize.val) : (s.writeByte a v).readByte a = some v := by
  rw [State.readByte_of_lt (s := s.writeByte a v) ha, State.writeByte_mem, if_pos ha, Memory.read_write_same v hwf]

theorem State.readByte_writeByte_other {j k : Nat} (s : State) (v : Byte) (h : j ≠ k) :
    (s.writeByte k v).readByte j = s.readByte j := by
  by_cases hk : k < s.memSize.val
  · simp [State.readByte, hk, Memory.read_write_other v h]
  · simp [State.readByte, hk]

/-- No step changes what a byte read answers. -/
theorem step_readByte {s t : State} (h : step s = .next t) (a : Nat) : t.readByte a = s.readByte a := by
  obtain ⟨hmem, hsize, -⟩ := step_memory_config h
  exact State.readByte_congr hmem hsize a

/-! ### A stored word, and the fetch -/

theorem readByte_storeWord_high {s : State} {a : Nat} (w : Word) (hwf : s.mem.wf = true) (ha : a < s.memSize.val) :
    (storeWord s a w).readByte a = some (highByte w) := by
  rw [storeWord, State.readByte_writeByte_other _ _ (Nat.ne_of_lt (Nat.lt_succ_self a)),
    State.readByte_writeByte_same _ hwf ha]

theorem readByte_storeWord_low {s : State} {a : Nat} (w : Word) (hwf : s.mem.wf = true)
    (ha : a + 1 < s.memSize.val) : (storeWord s a w).readByte (a + 1) = some (lowByte w) :=
  State.readByte_writeByte_same _ (State.writeByte_wf s a _ hwf) ha

theorem readByte_storeWord_other {j a : Nat} (s : State) (w : Word) (hhigh : j ≠ a) (hlow : j ≠ a + 1) :
    (storeWord s a w).readByte j = s.readByte j := by
  rw [storeWord, State.readByte_writeByte_other _ _ hlow, State.readByte_writeByte_other _ _ hhigh]

/-- The fetch is the two byte reads, the byte at the lower address first (20_memory.md R53). -/
theorem fetchAt_of_readByte {s : State} {a : Word} {hi lo : Byte} (hin : a.toNat + 2 ≤ s.memSize.val)
    (hhi : s.readByte a.toNat = some hi) (hlo : s.readByte (a.toNat + 1) = some lo) :
    fetchAt s a = some (wordOfBytes hi lo) := by
  rw [State.readByte_of_lt (by omega), Option.some.injEq] at hhi hlo
  rw [fetchAt, if_pos hin, hhi, hlo]

/-- A stored word is fetched from its address. -/
theorem fetchAt_storeWord {s : State} {a : Word} (w : Word) (hwf : s.mem.wf = true)
    (hin : a.toNat + 2 ≤ s.memSize.val) : fetchAt (storeWord s a.toNat w) a = some w := by
  have hhi := readByte_storeWord_high w hwf (show a.toNat < s.memSize.val by omega)
  have hlo := readByte_storeWord_low w hwf (show a.toNat + 1 < s.memSize.val by omega)
  rw [fetchAt_of_readByte (s := storeWord s a.toNat w) hin hhi hlo, wordOfBytes_high_low]

/-- The load of a 16-bit word at the pc stores that word there. -/
theorem State.withFetchWord_toNat (s : State) (w : Word) :
    s.withFetchWord 16 w.toNat = storeWord s s.pc.toNat w := by
  have hw : tableWord 16 w.toNat = w := by
    rw [tableWord, Nat.mod_eq_of_lt w.isLt, BitVec.ofNat_toNat, BitVec.setWidth_eq]
  rw [State.withFetchWord, hw]

/-! ### The statements -/

/-- Settles O9: one step changes no byte read, so by induction no run does. -/
theorem runsKeepMemory : Obligations.RunsKeepMemory := by
  intro s t a ⟨n, hrun⟩
  exact run_keeps (fun u => u.readByte a = s.readByte a) (fun u v hu hv => (step_readByte hv a).trans hu) n s t rfl hrun

/-- Settles O52: the load is a word stored at the pc, which the fetch reads back and which no other byte read sees. -/
theorem loadedWordIsFetched : Obligations.LoadedWordIsFetched := by
  intro s w hwf hin
  rw [State.withFetchWord_toNat]
  refine ⟨?_, rfl, fun a hhigh hlow => ?_⟩
  · exact fetchAt_storeWord w hwf hin
  · exact readByte_storeWord_other s w hhigh hlow

/-- Settles O7: in bounds both byte reads answer, and the fetch joins what they answer. -/
theorem fetchIsBigEndian : Obligations.FetchIsBigEndian := by
  intro s a hin
  have hhi := State.readByte_of_lt (show a.toNat < s.memSize.val by omega)
  have hlo := State.readByte_of_lt (show a.toNat + 1 < s.memSize.val by omega)
  exact ⟨_, _, _, fetchAt_of_readByte hin hhi hlo, hhi, hlo, wordOfBytes_toNat _ _⟩

/-- Settles O8: out of bounds the fetch answers no word, and the step takes the fault before any advance. -/
theorem outOfBoundsFetchFaults : Obligations.OutOfBoundsFetchFaults := by
  intro s hs hout
  have hf : fetch s = none := fetchAt_eq_none.2 hout
  exact step_of_fetch_none hs hf

end Sys2Proof.Machine
end

section
/-! PROOF. The statements of 30_encoding.md. A word is its four nibbles, so the decoder's dispatch, the words of the encoder
and the rows of the opcode table are compared nibble by nibble; the two round trips then say that a word decodes to an
instruction exactly when it is that instruction's encoding. -/

namespace Sys2Proof

/-! ### The fields of a word (30_encoding.md R81) -/

@[simp] theorem decodeFields_cls_toNat (w : Word) : (decodeFields w).cls.toNat = w.toNat / 4096 := by
  have hw := w.isLt
  simp only [decodeFields, BitVec.extractLsb'_toNat, Nat.shiftRight_eq_div_pow]
  omega

@[simp] theorem decodeFields_x_toNat (w : Word) : (decodeFields w).x.toNat = w.toNat / 256 % 16 := by
  simp [decodeFields, Nat.shiftRight_eq_div_pow]

@[simp] theorem decodeFields_y_toNat (w : Word) : (decodeFields w).y.toNat = w.toNat / 16 % 16 := by
  simp [decodeFields, Nat.shiftRight_eq_div_pow]

@[simp] theorem decodeFields_sub_toNat (w : Word) : (decodeFields w).sub.toNat = w.toNat % 16 := by
  simp [decodeFields]

@[simp] theorem decodeFields_addr12_toNat (w : Word) : (decodeFields w).addr12.toNat = w.toNat % 4096 := by
  simp [decodeFields]

@[simp] theorem decodeFields_imm8_toNat (w : Word) : (decodeFields w).imm8.toNat = w.toNat % 256 := by
  simp [decodeFields]

/-- Two words are equal when their four nibbles are. -/
theorem word_eq_iff_nibbles {v w : Word} :
    v = w ↔ (decodeFields v).cls = (decodeFields w).cls ∧ (decodeFields v).x = (decodeFields w).x ∧
      (decodeFields v).y = (decodeFields w).y ∧ (decodeFields v).sub = (decodeFields w).sub := by
  simp only [← BitVec.toNat_inj, decodeFields_cls_toNat, decodeFields_x_toNat, decodeFields_y_toNat,
    decodeFields_sub_toNat]
  omega

/-- Two words are equal when their classes and their low 12 bits are. -/
theorem word_eq_iff_cls_addr12 {v w : Word} :
    v = w ↔ (decodeFields v).cls = (decodeFields w).cls ∧ (decodeFields v).addr12 = (decodeFields w).addr12 := by
  simp only [← BitVec.toNat_inj, decodeFields_cls_toNat, decodeFields_addr12_toNat]
  omega

/-- A mask acts on each nibble for itself. -/
theorem and_eq_iff_nibbles {w m p : Word} :
    w &&& m = p ↔
      (decodeFields w).cls &&& (decodeFields m).cls = (decodeFields p).cls ∧
      (decodeFields w).x &&& (decodeFields m).x = (decodeFields p).x ∧
      (decodeFields w).y &&& (decodeFields m).y = (decodeFields p).y ∧
      (decodeFields w).sub &&& (decodeFields m).sub = (decodeFields p).sub := by
  rw [word_eq_iff_nibbles]
  simp only [decodeFields, BitVec.extractLsb'_and]

theorem nibble_and_fifteen (n : Nibble) : n &&& 0xF#4 = n := BitVec.and_allOnes

/-! ### The instruction of the nibbles -/

theorem decodeWord_of_cls_two {w : Word} (h : (decodeFields w).cls = 0x2#4) :
    decodeWord w = some (.call (decodeFields w).addr12) := by
  simp [decodeWord, dispatch, h]

theorem decodeWord_of_cls_eight_sub_four {w : Word} (hcls : (decodeFields w).cls = 0x8#4)
    (hsub : (decodeFields w).sub = 0x4#4) : decodeWord w = some (.add (decodeFields w).x (decodeFields w).y) := by
  simp [decodeWord, dispatch, hcls, hsub]

/-- The four arms of the dispatch that answer an instruction. -/
theorem decodeWord_cases {w : Word} {i : Instr} (h : decodeWord w = some i) :
    (i = .halt ∧ w = 0x0000) ∨ (i = .ret ∧ w = 0x00EE) ∨
    (i = .call (decodeFields w).addr12 ∧ (decodeFields w).cls = 0x2#4) ∨
    (i = .add (decodeFields w).x (decodeFields w).y ∧ (decodeFields w).cls = 0x8#4 ∧ (decodeFields w).sub = 0x4#4) := by
  unfold decodeWord dispatch at h
  split_ifs at h with hhalt hadd hret hcall <;> cases h
  · exact .inl ⟨rfl, word_eq_iff_nibbles.2 hhalt⟩
  · exact .inr (.inr (.inr ⟨rfl, hadd⟩))
  · exact .inr (.inl ⟨rfl, word_eq_iff_nibbles.2 hret⟩)
  · exact .inr (.inr (.inl ⟨rfl, hcall⟩))

/-! ### The round trips -/

theorem decodeFields_encode_call (nnn : Addr12) :
    (decodeFields (encode (.call nnn))).cls = 0x2#4 ∧ (decodeFields (encode (.call nnn))).addr12 = nnn := by
  have hn := nnn.isLt
  simp only [← BitVec.toNat_inj, decodeFields_cls_toNat, decodeFields_addr12_toNat, encode_call_toNat,
    BitVec.toNat_ofNat]
  omega

theorem decodeFields_encode_add (x y : RegIdx) :
    (decodeFields (encode (.add x y))).cls = 0x8#4 ∧ (decodeFields (encode (.add x y))).x = x ∧
      (decodeFields (encode (.add x y))).y = y ∧ (decodeFields (encode (.add x y))).sub = 0x4#4 := by
  have hx := x.isLt
  have hy := y.isLt
  simp only [← BitVec.toNat_inj, decodeFields_cls_toNat, decodeFields_x_toNat, decodeFields_y_toNat,
    decodeFields_sub_toNat, encode_add_toNat, BitVec.toNat_ofNat]
  omega

@[simp] theorem decodeWord_encode (i : Instr) : decodeWord (encode i) = some i := by
  cases i with
  | halt => decide
  | ret => decide
  | call nnn =>
    obtain ⟨hcls, haddr⟩ := decodeFields_encode_call nnn
    rw [decodeWord_of_cls_two hcls, haddr]
  | add x y =>
    obtain ⟨hcls, hx, hy, hsub⟩ := decodeFields_encode_add x y
    rw [decodeWord_of_cls_eight_sub_four hcls hsub, hx, hy]

theorem encode_of_decodeWord {w : Word} {i : Instr} (h : decodeWord w = some i) : encode i = w := by
  rcases decodeWord_cases h with ⟨rfl, rfl⟩ | ⟨rfl, rfl⟩ | ⟨rfl, hcls⟩ | ⟨rfl, hcls, hsub⟩
  · rfl
  · rfl
  · obtain ⟨hcls', haddr⟩ := decodeFields_encode_call (decodeFields w).addr12
    exact word_eq_iff_cls_addr12.2 ⟨hcls'.trans hcls.symm, haddr⟩
  · obtain ⟨hcls', hx, hy, hsub'⟩ := decodeFields_encode_add (decodeFields w).x (decodeFields w).y
    exact word_eq_iff_nibbles.2 ⟨hcls'.trans hcls.symm, hx, hy, hsub'.trans hsub.symm⟩

/-- A word decodes to an instruction exactly when it is its encoding (30_encoding.md R85). -/
theorem decodeWord_eq_some_iff {w : Word} {i : Instr} : decodeWord w = some i ↔ w = encode i :=
  ⟨fun h => (encode_of_decodeWord h).symm, fun h => h ▸ decodeWord_encode i⟩

theorem decodeWord_eq_some_iff_toNat {w : Word} (i : Instr) :
    decodeWord w = some i ↔ w.toNat = (encode i).toNat := by
  rw [decodeWord_eq_some_iff, BitVec.toNat_inj]

/-! ### The rows of the table (30_encoding.md R85) -/

/-- Every instruction's operands pass the check, and its word matches a row with its mnemonic. -/
theorem encodingMatchesRow (i : Instr) : Laws.EncodingMatchesRow.Statement i := by
  cases i with
  | halt => exact Laws.EncodingMatchesRow.halt
  | ret => exact Laws.EncodingMatchesRow.ret
  | call nnn => exact Laws.EncodingMatchesRow.call nnn
  | add x y => exact Laws.EncodingMatchesRow.add x y

/-- CALL's row tests the class alone. -/
theorem and_callMask_iff {w : Word} : w &&& 0xF000 = 0x2000 ↔ (decodeFields w).cls = 0x2#4 := by
  have hm : decodeFields 0xF000 = ⟨0xF, 0, 0, 0, 0, 0⟩ := rfl
  have hp : decodeFields 0x2000 = ⟨0x2, 0, 0, 0, 0, 0⟩ := rfl
  rw [and_eq_iff_nibbles, hm, hp]
  simp [nibble_and_fifteen]

/-- ADD's row tests the class and the sub field. -/
theorem and_addMask_iff {w : Word} :
    w &&& 0xF00F = 0x8004 ↔ (decodeFields w).cls = 0x8#4 ∧ (decodeFields w).sub = 0x4#4 := by
  have hm : decodeFields 0xF00F = ⟨0xF, 0, 0, 0xF, 0xF, 0xF⟩ := rfl
  have hp : decodeFields 0x8004 = ⟨0x8, 0, 0, 0x4, 0x4, 0x4⟩ := rfl
  rw [and_eq_iff_nibbles, hm, hp]
  simp [nibble_and_fifteen]

/-- A word that matches a row decodes to an instruction with the row's mnemonic. -/
theorem decodeWord_of_row_matches {r : OpcodeRow} {w : Word} (hr : r ∈ opcodeTable) (hm : r.matches w = true) :
    ∃ i, decodeWord w = some i ∧ i.mnemonic = r.mnemonic := by
  rw [OpcodeRow.matches, beq_iff_eq] at hm
  simp only [opcodeTable, List.mem_cons, List.not_mem_nil, or_false] at hr
  rcases hr with rfl | rfl | rfl | rfl
  · exact ⟨.halt, decodeWord_eq_some_iff.2 (BitVec.and_allOnes.symm.trans hm), rfl⟩
  · exact ⟨.ret, decodeWord_eq_some_iff.2 (BitVec.and_allOnes.symm.trans hm), rfl⟩
  · exact ⟨_, decodeWord_of_cls_two (and_callMask_iff.1 hm), rfl⟩
  · obtain ⟨hcls, hsub⟩ := and_addMask_iff.1 hm
    exact ⟨_, decodeWord_of_cls_eight_sub_four hcls hsub, rfl⟩

theorem opcodeTable_mnemonics_distinct : opcodeTable.Pairwise fun r q => r.mnemonic ≠ q.mnemonic := by decide

/-- No word matches two rows: the instruction it decodes to has one mnemonic. -/
theorem opcodeTable_disjoint (w : Word) :
    opcodeTable.Pairwise fun r q => r.matches w = true → q.matches w = false := by
  refine opcodeTable_mnemonics_distinct.imp_of_mem fun {r q} hr hq hne hrm => Bool.eq_false_iff.2 fun hqm => hne ?_
  obtain ⟨i, hi, hir⟩ := decodeWord_of_row_matches hr hrm
  obtain ⟨j, hj, hjq⟩ := decodeWord_of_row_matches hq hqm
  have hij : i = j := Option.some.inj (hi.symm.trans hj)
  rw [← hir, hij, hjq]

/-- The unknown words are those that match no row (30_encoding.md R90). -/
theorem decodeWord_eq_none_iff {w : Word} : decodeWord w = none ↔ ∀ r ∈ opcodeTable, r.matches w = false := by
  constructor
  · intro hnone r hr
    refine Bool.eq_false_iff.2 fun hm => ?_
    obtain ⟨i, hi, -⟩ := decodeWord_of_row_matches hr hm
    exact absurd (hnone.symm.trans hi) nofun
  · intro hno
    refine Option.eq_none_iff_forall_ne_some.2 fun i hi => ?_
    obtain ⟨-, r, hr, -, hm⟩ := encodingMatchesRow i
    rw [encode_of_decodeWord hi, hno r hr] at hm
    cases hm

/-- The words of CALL by mask and operand (30_encoding.md R88). -/
theorem eq_encode_call_iff {w : Word} {nnn : Addr12} :
    w = encode (.call nnn) ↔ w &&& 0xF000 = 0x2000 ∧ nnn.toNat = w.toNat % 4096 := by
  obtain ⟨hcls, haddr⟩ := decodeFields_encode_call nnn
  rw [word_eq_iff_cls_addr12, hcls, haddr, and_callMask_iff, ← decodeFields_addr12_toNat, BitVec.toNat_inj,
    eq_comm (a := nnn)]

/-- The words of ADD by mask and operands (30_encoding.md R89). -/
theorem eq_encode_add_iff {w : Word} {x y : RegIdx} :
    w = encode (.add x y) ↔
      w &&& 0xF00F = 0x8004 ∧ x.toNat = w.toNat / 256 % 16 ∧ y.toNat = w.toNat / 16 % 16 := by
  obtain ⟨hcls, hx, hy, hsub⟩ := decodeFields_encode_add x y
  rw [word_eq_iff_nibbles, hcls, hx, hy, hsub, and_addMask_iff, ← decodeFields_x_toNat, ← decodeFields_y_toNat,
    BitVec.toNat_inj, BitVec.toNat_inj, eq_comm (a := x), eq_comm (a := y)]
  tauto

/-! ### Bytes (20_memory.md R55) -/

@[simp] theorem highByte_toNat (w : Word) : (highByte w).toNat = w.toNat / 256 := by
  have hw := w.isLt
  simp only [highByte, BitVec.extractLsb'_toNat, Nat.shiftRight_eq_div_pow]
  omega

@[simp] theorem lowByte_toNat (w : Word) : (lowByte w).toNat = w.toNat % 256 := by
  simp [lowByte]

/-- The bytes of an instruction decode to it, whatever follows. -/
@[simp] theorem decodeBytes_encodeBytes (i : Instr) (rest : List Byte) :
    decodeBytes (encodeBytes i ++ rest) = .ok (i, rest) := by
  simp [encodeBytes, decodeBytes, wordOfBytes_high_low]

/-! ### The statements -/

/-- Settles O4: the word is the instruction's one encoding, and its two bytes join to it. -/
theorem decodeEncodeRoundTrip : Obligations.DecodeEncodeRoundTrip := by
  intro i rest
  obtain ⟨hwf, -⟩ := encodingMatchesRow i
  exact ⟨hwf, decodeWord_encode i, decodeBytes_encodeBytes i rest⟩

/-- Settles O5: each arm of the dispatch fixes every nibble that is no operand. -/
theorem encodeDecodeRoundTrip : Obligations.EncodeDecodeRoundTrip :=
  fun _ _ => encode_of_decodeWord

/-- Settles O2: a word is an instruction exactly when it is the encoding, and the encodings are what the rows say. -/
theorem decoderFollowsTheOpcodeTable : Obligations.DecoderFollowsTheOpcodeTable := by
  intro w
  refine ⟨decodeWord_eq_some_iff, decodeWord_eq_some_iff, fun nnn => ?_, fun x y => ?_, decodeWord_eq_none_iff,
    opcodeTable_disjoint w⟩
  · rw [decodeWord_eq_some_iff, eq_encode_call_iff]
  · rw [decodeWord_eq_some_iff, eq_encode_add_iff]

/-- Settles O3: a word is an instruction exactly when it is the encoding, and the encoding and its halves are numbers. -/
theorem instructionWordsAndBytes : Obligations.InstructionWordsAndBytes := by
  refine ⟨fun w => ?_, by decide, by decide, fun nnn => ⟨_, _, rfl, ?_, ?_⟩, fun x y => ⟨_, _, rfl, ?_, ?_⟩⟩
  · refine ⟨decodeWord_eq_some_iff_toNat .halt, decodeWord_eq_some_iff_toNat .ret, fun nnn => ?_, fun x y => ?_⟩
    · rw [decodeWord_eq_some_iff_toNat, encode_call_toNat]
    · rw [decodeWord_eq_some_iff_toNat, encode_add_toNat]
  · rw [highByte_toNat, encode_call_toNat]
    omega
  · rw [lowByte_toNat, encode_call_toNat]
    omega
  · have hy := y.isLt
    rw [highByte_toNat, encode_add_toNat]
    omega
  · have hy := y.isLt
    rw [lowByte_toNat, encode_add_toNat]
    omega

/-- Settles O1: each field is its quotient and remainder, and the overlap is arithmetic on them. -/
theorem fieldsAreTheirBitRanges : Obligations.FieldsAreTheirBitRanges := by
  intro w
  refine ⟨decodeFields_cls_toNat w, decodeFields_x_toNat w, decodeFields_y_toNat w, decodeFields_sub_toNat w,
    decodeFields_addr12_toNat w, decodeFields_imm8_toNat w, ?_, ?_⟩
  · rw [decodeFields_addr12_toNat, decodeFields_x_toNat, decodeFields_y_toNat, decodeFields_sub_toNat]
    omega
  · rw [decodeFields_imm8_toNat, decodeFields_y_toNat, decodeFields_sub_toNat]
    omega

end Sys2Proof
end

section
/-! PROOF. The statements of 40_sequencer_halt.md. What an instruction answers is said forwards (CALL and RET answer where
their slot exists) and backwards (what any answer leaves unchanged); the rows of R115 are read off these facts. -/

namespace Sys2Proof.Machine

/-! ### The step, forwards -/

theorem step_of_terminal {s : State} (hs : s.status ≠ .running) : step s = .next s := by
  cases hv : s.status with
  | running => exact absurd hv hs
  | halted => simp [step, hv, terminalStep]
  | faulted => simp [step, hv, terminalStep]

theorem step_of_unknown {s : State} {w : Word} (hs : s.status = .running) (hf : fetch s = some w)
    (hd : decodeWord w = none) : step s = .next (unknownOpcode s w) := by
  simp [step, hs, hf, hd]

/-- A step has one answer. -/
theorem eq_of_next {o : Host.Outcome State Fault Refusal} {t u : State} (ht : o = .next t) (hu : o = .next u) :
    t = u :=
  Host.Outcome.next.inj (ht.symm.trans hu)

/-! ### CALL and RET, forwards -/

theorem exec_call_of_full (nnn : Addr12) {s : State} (hfull : s.sp = s.stackDepth) :
    exec (.call nnn) s = .next (takeFault s.advance .stackOverflow s.pc (some (encode (.call nnn)))) :=
  if_pos hfull

theorem exec_call_of_free (nnn : Addr12) {s : State} (hfree : s.sp ≠ s.stackDepth) (hslot : s.sp < s.stack.length) :
    exec (.call nnn) s =
      .next { s with stack := s.stack.set s.sp (s.pc + 2), sp := s.sp + 1, pc := callTarget nnn } := by
  have hpush : pushSlot s.advance s.advance.pc = some _ := if_pos hslot
  simp only [exec, execCall, if_neg hfree, hpush]
  rfl

theorem exec_ret_of_empty {s : State} (hempty : s.sp = 0) :
    exec .ret s = .next (takeFault s.advance .stackUnderflow s.pc (some (encode .ret))) :=
  if_pos hempty

theorem exec_ret_of_slot {s : State} {n : Nat} {v : Word} (hsp : s.sp = n + 1) (hslot : s.readSlot n = some v) :
    exec .ret s = .next { s with sp := n, pc := v } := by
  have hne : s.sp ≠ 0 := by omega
  have hpop : popSlot s.advance = some (v, { s.advance with sp := n }) := by
    simp only [State.readSlot] at hslot
    simp [popSlot, hsp, hslot]
  simp only [exec, execRet, if_neg hne, hpop]
  rfl

/-- In a state of the right shape every instruction answers: where sp is below the depth, or above 0, the slot exists. -/
theorem exec_answers_of_wf (i : Instr) {s : State} (hwf : s.Wf) : ∃ t, exec i s = .next t := by
  have hlen := hwf.stack_length
  have hle := hwf.sp_le_depth
  cases i with
  | halt => exact ⟨_, rfl⟩
  | add x y => exact ⟨_, rfl⟩
  | call nnn =>
    by_cases hfull : s.sp = s.stackDepth
    · exact ⟨_, exec_call_of_full nnn hfull⟩
    · exact ⟨_, exec_call_of_free nnn hfull (by omega)⟩
  | ret =>
    cases hsp : s.sp with
    | zero => exact ⟨_, exec_ret_of_empty hsp⟩
    | succ n =>
      have hslot : s.readSlot n = some s.stack[n] := List.getElem?_eq_getElem (by omega)
      exact ⟨_, exec_ret_of_slot hsp hslot⟩

/-! ### What an instruction leaves unchanged -/

theorem exec_memory_config {i : Instr} {s t : State} (h : exec i s = .next t) :
    t.mem = s.mem ∧ t.memSize = s.memSize ∧ t.stackDepth = s.stackDepth := by
  rcases exec_cases h with ⟨-, rfl⟩ | ⟨x, y, -, rfl⟩ | ⟨nnn, -, -, rfl⟩ | ⟨nnn, -, -, -, rfl⟩ | ⟨-, -, rfl⟩ |
    ⟨n, v, -, -, -, rfl⟩ <;> exact ⟨rfl, rfl, rfl⟩

theorem exec_regs_or_add {i : Instr} {s t : State} (h : exec i s = .next t) :
    t.regs = s.regs ∨ ∃ x y, i = .add x y := by
  rcases exec_cases h with ⟨-, rfl⟩ | ⟨x, y, hadd, -⟩ | ⟨nnn, -, -, rfl⟩ | ⟨nnn, -, -, -, rfl⟩ | ⟨-, -, rfl⟩ |
    ⟨n, v, -, -, -, rfl⟩
  case inr.inl => exact .inr ⟨x, y, hadd⟩
  all_goals exact .inl rfl

/-- The only slot an instruction changes is the one at sp, by a CALL below the depth. -/
theorem exec_readSlot {i : Instr} {s t : State} {k : Nat} (h : exec i s = .next t)
    (hk : (∃ nnn, i = .call nnn) → s.sp = s.stackDepth ∨ k ≠ s.sp) : t.readSlot k = s.readSlot k := by
  rcases exec_cases h with ⟨-, rfl⟩ | ⟨x, y, -, rfl⟩ | ⟨nnn, -, -, rfl⟩ | ⟨nnn, hcall, hfree, -, rfl⟩ | ⟨-, -, rfl⟩ |
    ⟨n, v, -, -, -, rfl⟩
  case inr.inr.inr.inl =>
    have hne : k ≠ s.sp := (hk ⟨nnn, hcall⟩).resolve_left hfree
    simp [State.readSlot, hne.symm]
  all_goals rfl

theorem exec_call_status_fault {nnn : Addr12} {s t : State} (h : exec (.call nnn) s = .next t)
    (hfree : s.sp ≠ s.stackDepth) : t.status = s.status ∧ t.fault = s.fault := by
  rcases execCall_cases h with ⟨hfull, -⟩ | ⟨-, -, rfl⟩
  · exact absurd hfull hfree
  · exact ⟨rfl, rfl⟩

theorem exec_ret_status_fault {s t : State} (h : exec .ret s = .next t) (hsp : s.sp ≠ 0) :
    t.status = s.status ∧ t.fault = s.fault := by
  rcases execRet_cases h with ⟨hempty, -⟩ | ⟨n, v, -, -, rfl⟩
  · exact absurd hempty hsp
  · exact ⟨rfl, rfl⟩

theorem exec_add_status_fault {x y : RegIdx} {s t : State} (h : exec (.add x y) s = .next t) :
    t.status = s.status ∧ t.fault = s.fault := by
  rw [execAdd_cases h]
  exact ⟨rfl, rfl⟩

theorem State.Wf.fault_eq_none {s : State} (hwf : s.Wf) (hs : s.status = .running) : s.fault = none := by
  have hiff := hwf.fault_iff_faulted
  rw [hs] at hiff
  simpa using hiff

/-! ### The masks of 40_sequencer_halt.md R115 -/

theorem exists_decodeWord_call {w : Word} (h : w &&& 0xF000 = 0x2000) : ∃ nnn, decodeWord w = some (.call nnn) :=
  ⟨_, decodeWord_of_cls_two (and_callMask_iff.1 h)⟩

theorem exists_decodeWord_add {w : Word} (h : w &&& 0xF00F = 0x8004) : ∃ x y, decodeWord w = some (.add x y) := by
  obtain ⟨hcls, hsub⟩ := and_addMask_iff.1 h
  exact ⟨_, _, decodeWord_of_cls_eight_sub_four hcls hsub⟩

/-! ### The statements -/

/-- Settles O36: the fetch fails, the word is unknown, or an instruction answers because the shape gives it its slot. -/
theorem stepFromWfAnswersNext : Obligations.StepFromWfAnswersNext := by
  intro s hwf
  by_cases hs : s.status = .running
  · cases hf : fetch s with
    | none => exact ⟨_, step_of_fetch_none hs hf⟩
    | some w =>
      cases hd : decodeWord w with
      | none => exact ⟨_, step_of_unknown hs hf hd⟩
      | some i =>
        rw [step_of_executes ⟨w, hs, hf, hd⟩]
        exact exec_answers_of_wf i hwf
  · exact ⟨s, step_of_terminal hs⟩

/-- Settles O13: the word of each row decodes to one instruction, or to none, and that fixes what the step answers. -/
theorem stepOutcomesFollowTheTable : Obligations.StepOutcomesFollowTheTable := by
  intro s hwf hs
  obtain ⟨t, ht⟩ := stepFromWfAnswersNext s hwf
  refine ⟨t, ht, fun hout => ?outOfBounds, fun hin => ?inBounds⟩
  case outOfBounds =>
    obtain rfl := eq_of_next ht (step_of_fetch_none hs (fetchAt_eq_none.2 hout))
    exact ⟨rfl, rfl⟩
  case inBounds =>
    obtain ⟨w, -, -, hf, -⟩ := fetchIsBigEndian s s.pc hin
    have hexec : ∀ {i}, decodeWord w = some i → exec i s = .next t := fun hd => exec_of_step ⟨w, hs, hf, hd⟩ ht
    have hret : w = 0x00EE → exec .ret s = .next t := fun hw => hexec (decodeWord_eq_some_iff (i := .ret).2 hw)
    have hnone := hwf.fault_eq_none hs
    have hruns : t.status = s.status ∧ t.fault = s.fault → t.status = .running ∧ t.fault = none :=
      fun ⟨hstatus, hfault⟩ => ⟨hstatus.trans hs, hfault.trans hnone⟩
    refine ⟨w, hf, fun hw => ?halt, fun hw => ?add, fun hw hfree => ?call, fun hw hfull => ?callFull,
      fun hw hpos => ?ret, fun hw hempty => ?retEmpty, fun hno => ?unknown⟩
    case halt =>
      rw [execHalt_cases (hexec (decodeWord_eq_some_iff (i := .halt).2 hw))]
      exact ⟨rfl, hnone⟩
    case add =>
      obtain ⟨x, y, hd⟩ := exists_decodeWord_add hw
      exact hruns (exec_add_status_fault (hexec hd))
    case call =>
      obtain ⟨nnn, hd⟩ := exists_decodeWord_call hw
      exact hruns (exec_call_status_fault (hexec hd) hfree.ne)
    case callFull =>
      obtain ⟨nnn, hd⟩ := exists_decodeWord_call hw
      obtain rfl := eq_of_next (hexec hd) (exec_call_of_full nnn hfull)
      exact ⟨rfl, rfl⟩
    case ret => exact hruns (exec_ret_status_fault (hret hw) hpos.ne')
    case retEmpty =>
      obtain rfl := eq_of_next (hret hw) (exec_ret_of_empty hempty)
      exact ⟨rfl, rfl⟩
    case unknown =>
      obtain rfl := eq_of_next ht (step_of_unknown hs hf (decodeWord_eq_none_iff.2 hno))
      exact ⟨rfl, rfl⟩

/-- Settles O31: none of the three is an ADD, and each clause is what its instruction can answer. -/
theorem haltRetCallFrame : Obligations.HaltRetCallFrame := by
  intro i s t hi h
  obtain ⟨hmem, hsize, hdepth⟩ := exec_memory_config h
  have hregs : t.regs = s.regs := by
    rcases exec_regs_or_add h with hregs | ⟨x, y, rfl⟩
    · exact hregs
    · simp at hi
  refine ⟨State.reg_congr hregs, State.readByte_congr hmem hsize, hsize, hdepth, fun k => exec_readSlot h,
    ?halt, ?ret, ?retEmpty, ?call, ?callFull⟩
  case halt =>
    rintro rfl
    rw [execHalt_cases h]
    exact ⟨rfl, rfl⟩
  case ret =>
    rintro rfl
    exact exec_ret_status_fault h
  case retEmpty =>
    rintro rfl hempty
    rw [eq_of_next h (exec_ret_of_empty hempty), takeFault_sp, State.advance_sp]
  case call =>
    rintro ⟨nnn, rfl⟩
    exact exec_call_status_fault h
  case callFull =>
    rintro ⟨nnn, rfl⟩ hfull
    rw [eq_of_next h (exec_call_of_full nnn hfull), takeFault_sp, State.advance_sp]

/-- Settles O10: the encoding of an instruction decodes to it, so the second clause is the first. -/
theorem stepRunsTheDecodedInstruction : Obligations.StepRunsTheDecodedInstruction := by
  intro s hs
  have hdecoded : ∀ w i, fetch s = some w → decodeWord w = some i → step s = exec i s :=
    fun w _ hf hd => step_of_executes ⟨w, hs, hf, hd⟩
  exact ⟨hdecoded, fun i hf => hdecoded _ i hf (decodeWord_encode i)⟩

/-- Settles O12: by induction on the number of steps, each of them idle. -/
theorem terminalStatesStay : Obligations.TerminalStatesStay := by
  intro s hs
  have hstep := step_of_terminal hs
  refine ⟨hstep, fun n => ?_⟩
  induction n with
  | zero => rfl
  | succ n ih => exact (run_of_step hstep).trans ih

/-- Settles O14: HALT's meaning is the advance and the write of the status, as the statement writes them out. -/
theorem haltStops : Obligations.HaltStops :=
  ⟨decodeWord_zero, rfl, fun _ => rfl⟩

end Sys2Proof.Machine
end

section
/-! PROOF. The statements of 41_add.md. The sum and the carry of two bytes are said as bit vector facts; ADD answers in every
state, and its answer is told register by register. -/

namespace Sys2Proof.Machine

/-! ### The sum and the carry of two bytes (41_add.md R131) -/

theorem sumByte_eq_add (a b : Byte) : sumByte a b = a + b := by
  apply BitVec.eq_of_toNat_eq
  rw [sumByte_toNat, BitVec.toNat_add]

theorem sumByte_comm (a b : Byte) : sumByte a b = sumByte b a := by
  rw [sumByte_eq_add, sumByte_eq_add, BitVec.add_comm]

theorem carryByte_comm (a b : Byte) : carryByte a b = carryByte b a := by
  apply BitVec.eq_of_toNat_eq
  rw [carryByte_toNat, carryByte_toNat, Nat.add_comm]

theorem carryByte_toNat_eq_one_iff (a b : Byte) : (carryByte a b).toNat = 1 ↔ 256 ≤ a.toNat + b.toNat := by
  rw [carryByte_toNat]
  split <;> omega

theorem carryByte_toNat_eq_zero_iff (a b : Byte) : (carryByte a b).toNat = 0 ↔ a.toNat + b.toNat < 256 := by
  rw [carryByte_toNat]
  split <;> omega

/-- The 9-bit sum of two bytes is exact. -/
theorem nineBitSum_toNat (a b : Byte) : (a.setWidth 9 + b.setWidth 9).toNat = a.toNat + b.toNat := by
  have ha := a.isLt
  have hb := b.isLt
  simp only [BitVec.toNat_add, BitVec.toNat_setWidth]
  omega

theorem sumByte_eq_low_byte (a b : Byte) : sumByte a b = (a.setWidth 9 + b.setWidth 9).extractLsb' 0 8 := by
  apply BitVec.eq_of_toNat_eq
  rw [sumByte_toNat, BitVec.extractLsb'_toNat, nineBitSum_toNat, Nat.shiftRight_zero]

theorem carryByte_eq_top_bit (a b : Byte) :
    carryByte a b = ((a.setWidth 9 + b.setWidth 9).extractLsb' 8 1).setWidth 8 := by
  have ha := a.isLt
  have hb := b.isLt
  apply BitVec.eq_of_toNat_eq
  rw [carryByte_toNat, BitVec.toNat_setWidth, BitVec.extractLsb'_toNat, nineBitSum_toNat, Nat.shiftRight_eq_div_pow]
  split <;> omega

theorem sumByte_self (a : Byte) : sumByte a a = a <<< 1 := by
  apply BitVec.eq_of_toNat_eq
  rw [sumByte_toNat, BitVec.toNat_shiftLeft, Nat.shiftLeft_eq, ← Nat.mul_two]

/-- Doubling carries out the old bit 7 (41_add.md R132). -/
theorem carryByte_self_toNat (a : Byte) : (carryByte a a).toNat = (a.extractLsb' 7 1).toNat := by
  have ha := a.isLt
  rw [carryByte_toNat, BitVec.extractLsb'_toNat, Nat.shiftRight_eq_div_pow]
  split <;> omega

/-! ### The answer of ADD (41_add.md R130) -/

theorem exec_add_answers (x y : RegIdx) (s : State) : ∃ t, exec (.add x y) s = .next t := ⟨_, rfl⟩

/-- The destination holds the sum, but for register 15, where the carry is written last. -/
theorem reg_dest_of_exec_add {x y : RegIdx} {s t : State} (h : exec (.add x y) s = .next t) (hx : x ≠ 15) :
    t.reg x = sumByte (s.reg x) (s.reg y) := by
  rw [execAdd_cases h, State.reg_setReg_other _ _ _ _ (flagReg_eq ▸ hx), State.reg_setReg_same]

theorem reg_flag_toNat_of_exec_add {x y : RegIdx} {s t : State} (h : exec (.add x y) s = .next t) :
    (t.reg 15).toNat = if 255 < (s.reg x).toNat + (s.reg y).toNat then 1 else 0 := by
  rw [reg_flag_of_exec_add h, carryByte_toNat]

/-- An ADD writes the pc and the register file and no other field. -/
theorem exec_add_frame {x y : RegIdx} {s t : State} (h : exec (.add x y) s = .next t) :
    t.pc = s.pc + 2 ∧ { t with pc := s.pc, regs := s.regs } = s := by
  rw [execAdd_cases h]
  exact ⟨rfl, rfl⟩

theorem execAll_cons_of_exec {i : Instr} {is : List Instr} {s t : State} (h : exec i s = .next t) :
    execAll (i :: is) s = execAll is t := by
  simp only [execAll, h]

theorem execAll_pair {i j : Instr} {s t u : State} (hi : exec i s = .next t) (hj : exec j t = .next u) :
    execAll [i, j] s = .next u := by
  rw [execAll_cons_of_exec hi, execAll_cons_of_exec hj, execAll]

/-! ### The statements -/

/-- Settles O19: ADD answers in every state, and each clause is one rule about its answer. -/
theorem addCompletesWithItsFrame : Obligations.AddCompletesWithItsFrame := by
  intro x y s
  obtain ⟨t, h⟩ := exec_add_answers x y s
  obtain ⟨hmem, hsize, -⟩ := exec_memory_config h
  obtain ⟨hpc, hframe⟩ := exec_add_frame h
  refine ⟨t, h, fun hx => ?sum, reg_flag_toNat_of_exec_add h, fun r => reg_other_of_exec_add h, hpc,
    State.readByte_congr hmem hsize, fun k => ?slot, hframe⟩
  case sum => rw [reg_dest_of_exec_add h hx, sumByte_toNat]
  case slot => exact exec_readSlot h nofun

/-- Settles O20: sum and carry are the low byte and the top bit of the exact 9-bit sum. -/
theorem addIsUnsignedWithCarryOut : Obligations.AddIsUnsignedWithCarryOut := by
  intro x y s hx
  obtain ⟨t, h⟩ := exec_add_answers x y s
  refine ⟨t, h, ?_⟩
  rw [reg_dest_of_exec_add h hx, reg_flag_of_exec_add h]
  exact ⟨sumByte_toNat _ _, carryByte_toNat_eq_one_iff _ _, carryByte_toNat_eq_zero_iff _ _, sumByte_eq_low_byte _ _,
    carryByte_eq_top_bit _ _⟩

/-- Settles O21: the carry is written last, over the sum, and no third register is written. -/
theorem addToTheFlagRegisterKeepsTheCarry : Obligations.AddToTheFlagRegisterKeepsTheCarry := by
  intro y s
  obtain ⟨t, h⟩ := exec_add_answers 15 y s
  exact ⟨t, h, reg_flag_toNat_of_exec_add h, fun r hr => reg_other_of_exec_add h hr hr⟩

/-- Settles O22: sum and carry are those of the old values; a byte added to itself is shifted left by one. -/
theorem addReadsBothSourcesFirst : Obligations.AddReadsBothSourcesFirst := by
  intro x y s
  refine ⟨fun hx => ?doubling, fun hx => ?flagAsSource, fun hy => ?flagAsDestination, ?flagDoubling⟩
  case doubling =>
    obtain ⟨t, h⟩ := exec_add_answers x x s
    refine ⟨t, h, ?_⟩
    rw [reg_dest_of_exec_add h hx, reg_flag_of_exec_add h]
    exact ⟨sumByte_self _, carryByte_self_toNat _⟩
  case flagAsSource =>
    obtain ⟨t, h⟩ := exec_add_answers x 15 s
    exact ⟨t, h, reg_dest_of_exec_add h hx ▸ sumByte_eq_add _ _, reg_flag_toNat_of_exec_add h⟩
  case flagAsDestination =>
    obtain ⟨t, h⟩ := exec_add_answers 15 y s
    exact ⟨t, h, reg_other_of_exec_add h hy hy, reg_flag_toNat_of_exec_add h⟩
  case flagDoubling =>
    obtain ⟨t, h⟩ := exec_add_answers 15 15 s
    exact ⟨t, h, reg_flag_of_exec_add h ▸ carryByte_self_toNat _⟩

/-- Settles O23: sum and carry are symmetric in the operands; the second ADD of the sequence adds the first one's sum. -/
theorem addCommutesInResult : Obligations.AddCommutesInResult := by
  intro x y s hxy hx hy
  obtain ⟨t, ht⟩ := exec_add_answers x y s
  obtain ⟨u, hu⟩ := exec_add_answers y x s
  obtain ⟨v, hv⟩ := exec_add_answers y x t
  have hkept : t.reg y = s.reg y := reg_other_of_exec_add ht hxy.symm hy
  refine ⟨t, u, v, ht, hu, execAll_pair ht hv, ?sum, ?flag, hkept, reg_other_of_exec_add hu hxy hx, ?sequence⟩
  case sum => rw [reg_dest_of_exec_add ht hx, reg_dest_of_exec_add hu hy, sumByte_comm]
  case flag => rw [reg_flag_of_exec_add ht, reg_flag_of_exec_add hu, carryByte_comm]
  case sequence =>
    rw [reg_dest_of_exec_add hv hy, sumByte_toNat, hkept, reg_dest_of_exec_add ht hx, sumByte_toNat]
    omega

end Sys2Proof.Machine
end

section
/-! PROOF. The statements of 42_call_return.md. Code whose calls match is followed along its syntax, each call with its body
leaving the live slots as they were; and what an instruction or a step answers depends on the registers in no field but the
registers. -/

namespace Sys2Proof.Machine

/-! ### CALLs below the depth (42_call_return.md R140) -/

/-- The state a CALL to `nnn` leaves below the depth (42_call_return.md R140). -/
def State.afterCall (nnn : Addr12) (s : State) : State :=
  { s with stack := s.stack.set s.sp (s.pc + 2), sp := s.sp + 1, pc := callTarget nnn }

@[simp] theorem State.afterCall_sp (nnn : Addr12) (s : State) : (s.afterCall nnn).sp = s.sp + 1 := rfl
@[simp] theorem State.afterCall_stack_length (nnn : Addr12) (s : State) :
    (s.afterCall nnn).stack.length = s.stack.length := List.length_set

theorem State.afterCall_readSlot_sp (nnn : Addr12) {s : State} (hslot : s.sp < s.stack.length) :
    (s.afterCall nnn).readSlot s.sp = some (s.pc + 2) :=
  List.getElem?_set_self hslot

theorem State.afterCall_readSlot_other (nnn : Addr12) {s : State} {k : Nat} (hk : k ≠ s.sp) :
    (s.afterCall nnn).readSlot k = s.readSlot k :=
  List.getElem?_set_ne hk.symm

/-- A state with STACK_DEPTH slots, `d` of them free (10_state.md R29, R30). -/
structure State.HasFree (d : Nat) (s : State) : Prop where
  stack_length : s.stack.length = s.stackDepth
  sp_add_le : s.sp + d ≤ s.stackDepth

theorem State.HasFree.mono {c d : Nat} {s : State} (h : s.HasFree d) (hcd : c ≤ d) : s.HasFree c :=
  ⟨h.stack_length, (Nat.add_le_add_left hcd s.sp).trans h.sp_add_le⟩

theorem State.HasFree.sp_lt_length {d : Nat} {s : State} (h : s.HasFree (d + 1)) : s.sp < s.stack.length := by
  obtain ⟨hlen, hfree⟩ := h
  omega

/-- A CALL takes one free slot. -/
theorem State.HasFree.afterCall {d : Nat} {s : State} (h : s.HasFree (d + 1)) (nnn : Addr12) :
    (s.afterCall nnn).HasFree d := by
  obtain ⟨hlen, hfree⟩ := h
  refine ⟨(State.afterCall_stack_length nnn s).trans hlen, ?_⟩
  rw [State.afterCall_sp, Nat.add_right_comm]
  exact hfree

theorem exec_call_of_hasFree {d : Nat} {s : State} (h : s.HasFree (d + 1)) (nnn : Addr12) :
    exec (.call nnn) s = .next (s.afterCall nnn) := by
  have hslot := h.sp_lt_length
  exact exec_call_of_free nnn (h.stack_length ▸ hslot.ne) hslot

/-- CALLs that fit the free slots change the stack, sp and the pc and no other field, and each raises sp by one. -/
theorem execAll_calls (targets : List Addr12) {s : State} (h : s.HasFree targets.length) :
    ∃ stack pc, execAll (targets.map .call) s = .next { s with stack, sp := s.sp + targets.length, pc } := by
  induction targets generalizing s with
  | nil => exact ⟨s.stack, s.pc, rfl⟩
  | cons nnn targets ih =>
    obtain ⟨stack, pc, hrest⟩ := ih (h.afterCall nnn)
    refine ⟨stack, pc, ?_⟩
    rw [List.map_cons, execAll_cons_of_exec (exec_call_of_hasFree h nnn), hrest, State.afterCall_sp,
      Nat.add_right_comm]
    rfl

/-! ### Matched code (42_call_return.md R147) -/

theorem execAll_append_of_execAll {is js : List Instr} {s t : State} (h : execAll is s = .next t) :
    execAll (is ++ js) s = execAll js t := by
  induction is generalizing s with
  | nil => cases h; rfl
  | cons i is ih =>
    rw [execAll] at h
    split at h
    case h_1 u hu =>
      rw [List.cons_append, execAll_cons_of_exec hu]
      exact ih h
    all_goals cases h

/-- `t` is `s` past `n` instructions with the live slots as they were; registers and free slots are arbitrary. -/
def State.ReturnsPast (n : Nat) (s t : State) : Prop :=
  ∃ regs stack, t = { s with regs, stack, pc := s.pc + BitVec.ofNat 16 (2 * n) } ∧
    stack.length = s.stack.length ∧ ∀ k, k < s.sp → t.readSlot k = s.readSlot k

theorem State.returnsPast_zero (s : State) : s.ReturnsPast 0 s :=
  ⟨s.regs, s.stack, by simp, rfl, fun _ _ => rfl⟩

theorem State.ReturnsPast.hasFree {d n : Nat} {s t : State} (h : s.ReturnsPast n t) (hs : s.HasFree d) :
    t.HasFree d := by
  obtain ⟨_, _, rfl, hlen, -⟩ := h
  exact ⟨hlen.trans hs.stack_length, hs.sp_add_le⟩

theorem State.ReturnsPast.trans {m n : Nat} {s t u : State} (hst : s.ReturnsPast m t) (htu : t.ReturnsPast n u) :
    s.ReturnsPast (n + m) u := by
  obtain ⟨_, _, rfl, hlen, hlive⟩ := hst
  obtain ⟨regs, stack, rfl, hlen', hlive'⟩ := htu
  refine ⟨regs, stack, ?_, hlen'.trans hlen, fun k hk => (hlive' k hk).trans (hlive k hk)⟩
  rw [Nat.add_comm n, Nat.mul_add, BitVec.ofNat_add, ← BitVec.add_assoc]

theorem returnsPast_of_exec_add {x y : RegIdx} {s t : State} (h : exec (.add x y) s = .next t) :
    s.ReturnsPast 1 t := by
  rw [execAdd_cases h]
  exact ⟨_, s.stack, rfl, rfl, fun _ _ => rfl⟩

/-- A body that keeps the live slots keeps the one its CALL has just filled, so the RET after it returns to the caller. -/
theorem exec_ret_returnsPast {n : Nat} {nnn : Addr12} {s v : State} (hslot : s.sp < s.stack.length)
    (hbody : (s.afterCall nnn).ReturnsPast n v) : ∃ t, exec .ret v = .next t ∧ s.ReturnsPast 1 t := by
  obtain ⟨regs, stack, hv, hlen, hlive⟩ := hbody
  have hpushed : v.readSlot s.sp = some (s.pc + 2) :=
    (hlive s.sp (Nat.lt_succ_self _)).trans (State.afterCall_readSlot_sp nnn hslot)
  have hkept : ∀ k, k < s.sp → v.readSlot k = s.readSlot k := fun k hk =>
    (hlive k (Nat.lt_succ_of_lt hk)).trans (State.afterCall_readSlot_other nnn hk.ne)
  have hsp : v.sp = s.sp + 1 := by rw [hv, State.afterCall_sp]
  refine ⟨_, exec_ret_of_slot hsp hpushed, regs, stack, ?_, ?_, hkept⟩
  · rw [hv]
    rfl
  · rw [hlen, State.afterCall_stack_length]

/-- Matched code that fits the free slots ends past its outermost instructions, the live slots as they were. -/
theorem execAll_matched (m : Matched) {s : State} (h : s.HasFree m.depth) :
    ∃ t, execAll m.instrs s = .next t ∧ s.ReturnsPast m.width t := by
  induction m generalizing s with
  | done => exact ⟨s, rfl, s.returnsPast_zero⟩
  | add x y rest ih =>
    obtain ⟨u, hadd⟩ := exec_add_answers x y s
    have hpast := returnsPast_of_exec_add hadd
    obtain ⟨t, hrest, ht⟩ := ih (hpast.hasFree h)
    exact ⟨t, (execAll_cons_of_exec hadd).trans hrest, hpast.trans ht⟩
  | call nnn body rest ihbody ihrest =>
    have hcall : s.HasFree (body.depth + 1) := h.mono (le_max_left _ _)
    obtain ⟨v, hbody, hv⟩ := ihbody (hcall.afterCall nnn)
    obtain ⟨u, hret, hpast⟩ := exec_ret_returnsPast hcall.sp_lt_length hv
    obtain ⟨t, hrest, ht⟩ := ihrest (hpast.hasFree (h.mono (le_max_right _ _)))
    refine ⟨t, ?_, hpast.trans ht⟩
    rw [Matched.instrs, execAll_cons_of_exec (exec_call_of_hasFree hcall nnn), execAll_append_of_execAll hbody,
      execAll_cons_of_exec hret, hrest]

/-- One CALL per target, each in the body of the one before it, and their RETs (42_call_return.md R147). -/
def nestedCalls : List Addr12 → Matched
  | [] => .done
  | nnn :: targets => .call nnn (nestedCalls targets) .done

theorem nestedCalls_instrs (targets : List Addr12) :
    (nestedCalls targets).instrs = targets.map .call ++ List.replicate targets.length .ret := by
  induction targets with
  | nil => rfl
  | cons nnn targets ih => simp [nestedCalls, Matched.instrs, ih, List.replicate_succ']

theorem nestedCalls_depth (targets : List Addr12) : (nestedCalls targets).depth = targets.length := by
  induction targets with
  | nil => rfl
  | cons nnn targets ih => simp [nestedCalls, Matched.depth, ih]

theorem nestedCalls_width {targets : List Addr12} (h : targets ≠ []) : (nestedCalls targets).width = 1 := by
  cases targets with
  | nil => exact absurd rfl h
  | cons nnn targets => rfl

/-! ### Registers (42_call_return.md R148) -/

theorem State.sameButRegs_iff {s t : State} : s.SameButRegs t ↔ ∃ regs, t = { s with regs } :=
  ⟨fun h => ⟨t.regs, h.symm⟩, fun ⟨_, h⟩ => h ▸ rfl⟩

/-- No check, no target and no fault record of an instruction reads a register. -/
theorem exec_sameButRegs {i : Instr} {s t s' : State} (hst : s.SameButRegs t) (h : exec i s = .next s') :
    ∃ t', exec i t = .next t' ∧ s'.SameButRegs t' := by
  obtain ⟨regs, rfl⟩ := State.sameButRegs_iff.1 hst
  rcases exec_cases h with ⟨rfl, rfl⟩ | ⟨x, y, rfl, rfl⟩ | ⟨nnn, rfl, hfull, rfl⟩ | ⟨nnn, rfl, hfree, hslot, rfl⟩ |
    ⟨rfl, hempty, rfl⟩ | ⟨n, v, rfl, hsp, hslot, rfl⟩
  · exact ⟨_, rfl, rfl⟩
  · exact ⟨_, rfl, rfl⟩
  · exact ⟨_, exec_call_of_full nnn hfull, rfl⟩
  · exact ⟨_, exec_call_of_free nnn hfree hslot, rfl⟩
  · exact ⟨_, exec_ret_of_empty hempty, rfl⟩
  · exact ⟨_, exec_ret_of_slot hsp hslot, rfl⟩

/-- The fetch and the decoder read no register either. -/
theorem step_sameButRegs {s t s' : State} (hst : s.SameButRegs t) (h : step s = .next s') :
    ∃ t', step t = .next t' ∧ s'.SameButRegs t' := by
  obtain ⟨regs, rfl⟩ := State.sameButRegs_iff.1 hst
  rcases step_cases h with ⟨hs, rfl⟩ | ⟨hs, hf, rfl⟩ | ⟨w, hs, hf, hd, rfl⟩ | ⟨w, i, hs, hf, hd, hi⟩
  · exact ⟨_, step_of_terminal hs, hst⟩
  · exact ⟨_, step_of_fetch_none hs hf, rfl⟩
  · exact ⟨_, step_of_unknown hs hf hd, rfl⟩
  · have he : State.Executes { s with regs } i := ⟨w, hs, hf, hd⟩
    rw [step_of_executes he]
    exact exec_sameButRegs hst hi

/-! ### The statements -/

/-- Settles O35: by induction on the number of steps, each of them alike in both runs. -/
theorem registersNeverSteerControl : Obligations.RegistersNeverSteerControl := by
  intro n
  induction n with
  | zero =>
    intro s t s' hst hrun
    cases hrun
    exact ⟨t, rfl, hst⟩
  | succ n ih =>
    intro s t s' hst hrun
    obtain ⟨u, hu, hrest⟩ := run_succ_cases hrun
    obtain ⟨v, hv, huv⟩ := step_sameButRegs hst hu
    rw [run_of_step hv]
    exact ih u v s' huv hrest

/-- Settles O32: matched code returns past its outermost instructions, and nested CALLs with their RETs are one such. -/
theorem matchedCallsReturn : Obligations.MatchedCallsReturn := by
  refine ⟨fun m s hlen hfit => ?_, fun targets s hne hlen hfit => ?_⟩
  · obtain ⟨_, h, regs, stack, rfl, -, hlive⟩ := execAll_matched m ⟨hlen, hfit⟩
    exact ⟨_, h, rfl, rfl, hlive, rfl, rfl, rfl⟩
  · obtain ⟨_, h, regs, stack, rfl, -, -⟩ :=
      execAll_matched (nestedCalls targets) (s := s) ⟨hlen, (nestedCalls_depth targets).symm ▸ hfit⟩
    rw [nestedCalls_instrs, nestedCalls_width hne] at h
    exact ⟨_, h, rfl, rfl⟩

/-- Settles O33: the CALLs that fit leave sp at the depth, where the next one takes the fault. -/
theorem capacityPlusOneCallsOverflow : Obligations.CapacityPlusOneCallsOverflow := by
  intro targets nnn s hlen hfit
  obtain ⟨stack, pc, h⟩ := execAll_calls targets (s := s) ⟨hlen, hfit.le⟩
  exact ⟨_, _, h, hfit, rfl, rfl, exec_call_of_full nnn hfit, rfl, rfl, hfit, rfl⟩

/-- Settles O26: the push finds its slot, and the target is zero-extended. -/
theorem callPushesAndJumps : Obligations.CallPushesAndJumps := by
  intro nnn s hfree hlen
  have htarget : (callTarget nnn).toNat = nnn.toNat := BitVec.toNat_setWidth_of_le (by decide)
  have hone : s.HasFree (0 + 1) := ⟨hlen, hfree⟩
  exact ⟨_, exec_call_of_hasFree hone nnn, rfl, htarget, State.afterCall_readSlot_sp nnn hone.sp_lt_length,
    fun _ => State.afterCall_readSlot_other nnn⟩

/-- Settles O27: the fault is taken on the advanced state, the record holding the CALL's own word. -/
theorem callOnAFullStackFaults : Obligations.CallOnAFullStackFaults :=
  fun nnn _ => exec_call_of_full nnn

/-- Settles O28: the pop answers the slot below sp. -/
theorem retPopsAndJumps : Obligations.RetPopsAndJumps :=
  fun _ _ _ => exec_ret_of_slot

/-- Settles O29: the fault is taken on the advanced state, the record holding RET's word. -/
theorem retOnAnEmptyStackFaults : Obligations.RetOnAnEmptyStackFaults :=
  fun _ => exec_ret_of_empty

end Sys2Proof.Machine
end

section
/-! PROOF. The statements of 60_exceptions.md. A step that faults is described once, with its cause; the frame of a fault and
the agreement of its record with the state are read off that description, and the end of a run off the invariants. -/

namespace Sys2Proof.Machine

/-! ### What a faulting step does (60_exceptions.md R165) -/

/-- Why the step from `s` faults once it has fetched `w` (60_exceptions.md R161 to R163). -/
inductive FetchedWordFault (s : State) (w : Word) : FaultKind → Prop
  | unknownOpcode (hd : decodeWord w = none) : FetchedWordFault s w .unknownOpcode
  | stackOverflow (nnn : Addr12) (hd : decodeWord w = some (.call nnn)) (hfull : s.sp = s.stackDepth) :
      FetchedWordFault s w .stackOverflow
  | stackUnderflow (hd : decodeWord w = some .ret) (hempty : s.sp = 0) : FetchedWordFault s w .stackUnderflow

theorem FetchedWordFault.kind_ne {s : State} {w : Word} {kind : FaultKind} (h : FetchedWordFault s w kind) :
    kind ≠ .outOfBoundsFetch := by
  cases h <;> decide

/-- The word an executed instruction was fetched as is its encoding. -/
theorem State.Executes.fetch_encode {s : State} {i : Instr} (h : s.Executes i) : fetch s = some (encode i) := by
  obtain ⟨w, -, hf, hd⟩ := h
  rw [encode_of_decodeWord hd, hf]

/-- A step that faults has fetched nothing, or takes the fault of the fetched word on the advanced state. -/
theorem step_faulted_cases {s t : State} (hs : s.status = .running) (h : step s = .next t) (ht : t.status = .faulted) :
    (fetch s = none ∧ t = outOfBoundsFetch s) ∨
    ∃ w kind, fetch s = some w ∧ FetchedWordFault s w kind ∧ t = takeFault s.advance kind s.pc (some w) := by
  cases stepOutcome_of_step h with
  | badFetch _ hf => exact .inl ⟨hf, rfl⟩
  | unknown w _ hf hd => exact .inr ⟨w, _, hf, .unknownOpcode hd, rfl⟩
  | callFull nnn he hfull => exact .inr ⟨_, _, he.fetch_encode, .stackOverflow nnn (decodeWord_encode _) hfull, rfl⟩
  | retEmpty he hempty => exact .inr ⟨_, _, he.fetch_encode, .stackUnderflow (decodeWord_encode _) hempty, rfl⟩
  | halt _ => exact absurd ht (by simp)
  | idle _ | add _ _ _ | callPush _ _ _ | retPop _ _ _ _ _ => exact absurd (hs.symm.trans ht) (by decide)

/-! ### The record and the state it is found in (60_exceptions.md R166) -/

theorem faultRecordAgrees_of_fault_none {s : State} (h : s.fault = none) : s.FaultRecordAgrees := by
  intro r hr
  rw [h] at hr
  cases hr

theorem outOfBoundsFetch_faultRecordAgrees {s : State} (hf : fetch s = none) :
    (outOfBoundsFetch s).FaultRecordAgrees := by
  rintro _ ⟨⟩
  exact ⟨hf.symm, rfl, fetchAt_eq_none.1 hf, rfl⟩

/-- The fault leaves memory and sp as the fetch and the check of its cause found them. -/
theorem FetchedWordFault.faultRecordAgrees {s : State} {w : Word} {kind : FaultKind} (h : FetchedWordFault s w kind)
    (hf : fetch s = some w) : (takeFault s.advance kind s.pc (some w)).FaultRecordAgrees := by
  rintro _ ⟨⟩
  refine ⟨hf.symm, ?_⟩
  cases h with
  | unknownOpcode hd => exact ⟨rfl, w, rfl, hd⟩
  | stackOverflow nnn hd hfull => exact ⟨rfl, hfull, w, nnn, rfl, hd⟩
  | stackUnderflow hd hempty => exact ⟨rfl, hempty, congrArg some (encode_of_decodeWord hd).symm⟩

theorem State.Wf.fault_eq_none_of_not_faulted {s : State} (hwf : s.Wf) (hs : s.status ≠ .faulted) : s.fault = none :=
  Option.not_isSome_iff_eq_none.1 (mt hwf.fault_iff_faulted.1 hs)

theorem State.Wf.exists_fault {s : State} (hwf : s.Wf) (hs : s.status = .faulted) : ∃ r, s.fault = some r :=
  Option.isSome_iff_exists.1 (hwf.fault_iff_faulted.2 hs)

/-- Settles O40: an idle step changes nothing, a fault writes a record that agrees, and any other step leaves no record. -/
theorem stepKeepsFaultRecordAgreement : Obligations.StepKeepsFaultRecordAgreement := by
  intro s t hwf hagrees h
  obtain ⟨htwf, -, -⟩ := stepKeepsWf s t hwf h
  by_cases hs : s.status = .running
  · by_cases ht : t.status = .faulted
    · rcases step_faulted_cases hs h ht with ⟨hf, rfl⟩ | ⟨w, kind, hf, hcause, rfl⟩
      · exact outOfBoundsFetch_faultRecordAgrees hf
      · exact hcause.faultRecordAgrees hf
    · exact faultRecordAgrees_of_fault_none (htwf.fault_eq_none_of_not_faulted ht)
  · exact eq_of_next h (step_of_terminal hs) ▸ hagrees

/-! ### The end of a run (60_exceptions.md R171) -/

/-- A halted machine stands right after a HALT word in memory (70_reset_and_hazards.md R213). -/
def State.HaltedAfterHaltWord (s : State) : Prop :=
  s.status = .halted → ∃ a, s.pc = a + 2 ∧ fetchAt s a = some 0x0000

/-- Only an executed HALT halts, and it leaves the pc right after itself. -/
theorem step_keeps_haltedAfterHaltWord {s t : State} (hkeep : s.HaltedAfterHaltWord) (h : step s = .next t) :
    t.HaltedAfterHaltWord := by
  by_cases hs : s.status = .running
  · intro ht
    have hexec := exec_of_step (executes_halt_of_step_halted hs h ht) h
    obtain ⟨hmem, hsize, -⟩ := step_memory_config h
    refine ⟨s.pc, ?_, ?_⟩
    · rw [execHalt_cases hexec, State.setStatus_pc, State.advance_pc]
    · rw [fetchAt_congr hmem hsize]
      exact (onlyTheHaltWordHalts s t hs h).1 ht
  · exact eq_of_next h (step_of_terminal hs) ▸ hkeep

/-- What the end of a run is read off: the shape of the state, and what the record and the status Halted tell of memory. -/
structure State.EndsExplained (s : State) : Prop where
  wf : s.Wf
  record_agrees : s.FaultRecordAgrees
  halted : s.HaltedAfterHaltWord

theorem step_keeps_endsExplained (s t : State) (hs : s.EndsExplained) (h : step s = .next t) : t.EndsExplained := by
  obtain ⟨hwf, hagrees, hhalted⟩ := hs
  obtain ⟨htwf, -, -⟩ := stepKeepsWf s t hwf h
  exact ⟨htwf, stepKeepsFaultRecordAgreement s t hwf hagrees h, step_keeps_haltedAfterHaltWord hhalted h⟩

theorem State.Launch.wf {s : State} (h : s.Launch) : s.Wf where
  memory_canonical := h.memory_canonical
  memory_inside := h.memory_inside
  stack_length := by rw [h.stack_zero, List.length_replicate]
  sp_le_depth := h.sp_zero ▸ Nat.zero_le _
  fault_iff_faulted := by simp [h.no_fault, h.running]

theorem State.Launch.endsExplained {s : State} (h : s.Launch) : s.EndsExplained where
  wf := h.wf
  record_agrees := faultRecordAgrees_of_fault_none h.no_fault
  halted ht := absurd (h.running.symm.trans ht) (by decide)

/-- Settles O18: a launch state meets the invariants, every step keeps them, and at the end the status says which one tells
how the run ended. -/
theorem runsEndWellOrWithARecord : Obligations.RunsEndWellOrWithARecord := by
  rintro s t hlaunch ⟨⟨n, hrun⟩, hend⟩
  obtain ⟨hwf, hagrees, hhalted⟩ := run_keeps _ step_keeps_endsExplained n s t hlaunch.endsExplained hrun
  refine ⟨hwf.sp_le_depth, ?_⟩
  cases ht : t.status with
  | running => exact absurd ht hend
  | halted => exact .inl ⟨ht, hwf.fault_eq_none_of_not_faulted (by simp [ht]), hhalted ht⟩
  | faulted =>
    obtain ⟨r, hr⟩ := hwf.exists_fault ht
    obtain ⟨hword, -⟩ := hagrees r hr
    exact .inr ⟨rfl, r, hr, hword⟩

/-! ### The frame, the unknown word and the codes -/

/-- Settles O42: without a word nothing but status and record is written; with one the advance stands and the record holds
the word. -/
theorem faultsArePrecise : Obligations.FaultsArePrecise := by
  intro s t hs h ht
  rcases step_faulted_cases hs h ht with ⟨hf, rfl⟩ | ⟨w, kind, hf, hcause, rfl⟩
  · exact ⟨rfl, _, rfl, rfl, hf.symm, iff_of_true rfl hf, rfl⟩
  · have hfetched : fetch s ≠ none := by simp [hf]
    exact ⟨rfl, _, rfl, rfl, hf.symm, iff_of_false hcause.kind_ne hfetched, (if_neg hcause.kind_ne).symm⟩

/-- Settles O11: the default arm of the dispatch takes the fault on the advanced state. -/
theorem unknownWordFaults : Obligations.UnknownWordFaults :=
  fun _ _ => step_of_unknown

/-- Settles O43: the code is read off the kind of the record. -/
theorem faultCodesAreTheSpecs : Obligations.FaultCodesAreTheSpecs :=
  ⟨rfl, fun _ _ => ⟨rfl, rfl, rfl, rfl⟩⟩

end Sys2Proof.Machine
end

section
/-! PROOF. Termination (70_reset_and_hazards.md R221). The addresses at which a run still has to go on, one per open frame,
are read as the digits of a number; every step that leaves the machine Running lowers it. -/

namespace Sys2Proof.Machine

/-! ### The number that every step lowers -/

/-- How many words can be fetched one after another from the address `a` on: the instructions a frame can still execute. -/
def fetchesLeft (memSize : Nat) (a : Word) : Nat := (memSize - a.toNat) / 2

/-- The base B of 70_reset_and_hazards.md R221. -/
def frameBase (s : State) : Nat := s.memSize.val / 2 + 1

/-- The addresses where the open frames go on, the innermost first: the pc and the live return addresses. -/
def frameAddrs (s : State) : List Word := s.pc :: (s.stack.take s.sp).reverse

/-- The frames as a number in base B: the digit of a frame is what it can still execute, the outermost frame has the highest
place, and the places of the frames not yet open stand empty below. -/
def runMeasure (s : State) : Nat :=
  Nat.ofDigits (frameBase s) ((frameAddrs s).map (fetchesLeft s.memSize.val)) * frameBase s ^ (s.stackDepth - s.sp)

theorem fetchesLeft_lt_frameBase (s : State) (a : Word) : fetchesLeft s.memSize.val a < frameBase s := by
  unfold fetchesLeft frameBase
  omega

/-- A fetch uses up one of the words its frame can still execute. -/
theorem fetchesLeft_of_fetch {s : State} {w : Word} (h : fetch s = some w) :
    fetchesLeft s.memSize.val s.pc = fetchesLeft s.memSize.val (s.pc + 2) + 1 := by
  have hin := fetchAt_inside h
  unfold fetchesLeft
  rw [toNat_add_two_of_fetch h]
  omega

theorem frameBase_pow_pos (s : State) (k : Nat) : 0 < frameBase s ^ k :=
  Nat.pow_pos (Nat.succ_pos _)

/-- A number is below the power of the base that its digits have places for; in base 1 too, where it is 0. -/
theorem ofDigits_lt_pow_length {b : Nat} {ds : List Nat} (h : ∀ d ∈ ds, d < b) : Nat.ofDigits b ds < b ^ ds.length := by
  induction ds with
  | nil => simp
  | cons d ds ih =>
    obtain ⟨hd, hds⟩ := List.forall_mem_cons.1 h
    calc Nat.ofDigits b (d :: ds) = d + b * Nat.ofDigits b ds := Nat.ofDigits_cons
      _ < b * (Nat.ofDigits b ds + 1) := by rw [Nat.mul_succ]; omega
      _ ≤ b * b ^ ds.length := Nat.mul_le_mul_left b (ih hds)
      _ = b ^ (d :: ds).length := (Nat.pow_succ').symm

/-- In the right shape the number has STACK_DEPTH + 1 places. -/
theorem runMeasure_lt {s : State} (hwf : s.Wf) : runMeasure s < frameBase s ^ (s.stackDepth + 1) := by
  have hle := hwf.sp_le_depth
  have hlen : ((frameAddrs s).map (fetchesLeft s.memSize.val)).length = s.sp + 1 := by
    simp [frameAddrs, hwf.stack_length, hle]
  have hplaces : s.sp + 1 + (s.stackDepth - s.sp) = s.stackDepth + 1 := by omega
  have hdigits : Nat.ofDigits (frameBase s) ((frameAddrs s).map (fetchesLeft s.memSize.val)) < frameBase s ^ (s.sp + 1) := by
    rw [← hlen]
    exact ofDigits_lt_pow_length (List.forall_mem_map.2 fun a _ => fetchesLeft_lt_frameBase s a)
  rw [← hplaces, Nat.pow_add]
  exact Nat.mul_lt_mul_of_pos_right hdigits (frameBase_pow_pos s _)

/-! ### The three steps that go on (40_sequencer_halt.md R115) -/

/-- The lowest place and the one above it, when a frame opens: the old frame gives up one, and the new one fits below it. -/
theorem openFrame_lt {b d e outer : Nat} (k : Nat) (he : e < b) :
    (e + b * (d + b * outer)) * b ^ k < (d + 1 + b * outer) * b ^ (k + 1) := by
  have hb : 0 < b := by omega
  calc (e + b * (d + b * outer)) * b ^ k < (b * (d + 1 + b * outer)) * b ^ k := by
        refine Nat.mul_lt_mul_of_pos_right ?_ (Nat.pow_pos hb)
        calc e + b * (d + b * outer) < b + b * (d + b * outer) := by omega
          _ = b * (d + 1 + b * outer) := by ring
    _ = (d + 1 + b * outer) * b ^ (k + 1) := by ring

/-- When a frame closes with words left, its place is emptied. -/
theorem closeFrame_lt {b d outer : Nat} (k : Nat) (hb : 0 < b) :
    outer * b ^ (k + 1) < (d + 1 + b * outer) * b ^ k := by
  calc outer * b ^ (k + 1) = (b * outer) * b ^ k := by ring
    _ < (d + 1 + b * outer) * b ^ k := Nat.mul_lt_mul_of_pos_right (by omega) (Nat.pow_pos hb)

/-- A step with the same open frames, the innermost of them past the word it fetched. -/
theorem runMeasure_advance_lt {s : State} {w : Word} (h : fetch s = some w) : runMeasure s.advance < runMeasure s := by
  refine Nat.mul_lt_mul_of_pos_right ?_ (frameBase_pow_pos s _)
  simp only [frameAddrs, List.map_cons, Nat.ofDigits_cons, fetchesLeft_of_fetch h]
  exact Nat.add_lt_add_right (Nat.lt_succ_self _) _

theorem runMeasure_push_lt {s : State} {w : Word} (nnn : Addr12) (hf : fetch s = some w)
    (hslot : s.sp < s.stack.length) (hdepth : s.stack.length = s.stackDepth) :
    runMeasure (s.afterCall nnn) < runMeasure s := by
  have haddrs : frameAddrs (s.afterCall nnn) = callTarget nnn :: (s.pc + 2) :: (s.stack.take s.sp).reverse := by
    simp [frameAddrs, State.afterCall, List.take_add_one, List.take_set_of_le, hslot]
  have hplaces : s.stackDepth - s.sp = s.stackDepth - (s.sp + 1) + 1 := by omega
  have hlt := openFrame_lt (d := fetchesLeft s.memSize.val (s.pc + 2))
    (outer := Nat.ofDigits (frameBase s) ((s.stack.take s.sp).reverse.map (fetchesLeft s.memSize.val)))
    (s.stackDepth - (s.sp + 1)) (fetchesLeft_lt_frameBase s (callTarget nnn))
  rw [← fetchesLeft_of_fetch hf, ← hplaces] at hlt
  unfold runMeasure
  rw [haddrs]
  exact hlt

theorem runMeasure_pop_lt {s : State} {w v : Word} {n : Nat} (hf : fetch s = some w) (hsp : s.sp = n + 1)
    (hslot : s.stack[n]? = some v) (hdepth : s.sp ≤ s.stackDepth) :
    runMeasure { s with sp := n, pc := v } < runMeasure s := by
  have haddrs : frameAddrs s = s.pc :: frameAddrs { s with sp := n, pc := v } := by
    simp [frameAddrs, hsp, List.take_add_one, hslot]
  have hplaces : s.stackDepth - n = s.stackDepth - s.sp + 1 := by omega
  unfold runMeasure
  rw [haddrs, List.map_cons, Nat.ofDigits_cons, fetchesLeft_of_fetch hf]
  change _ * frameBase s ^ (s.stackDepth - n) < _
  rw [hplaces]
  exact closeFrame_lt _ (Nat.succ_pos _)

/-- The number reads no register. -/
theorem runMeasure_setReg (s : State) (i : RegIdx) (v : Byte) : runMeasure (s.setReg i v) = runMeasure s := rfl

/-- A step from Running to Running is an ADD, a CALL with a free slot or a RET with a live one, and each lowers the number. -/
theorem step_runMeasure_lt {s t : State} (hwf : s.Wf) (hs : s.status = .running) (h : step s = .next t)
    (ht : t.status = .running) : runMeasure t < runMeasure s := by
  cases stepOutcome_of_step h with
  | add x y he =>
    obtain ⟨w, hf⟩ := he.exists_fetch
    simp only [runMeasure_setReg]
    exact runMeasure_advance_lt hf
  | callPush nnn he hslot =>
    obtain ⟨w, hf⟩ := he.exists_fetch
    exact runMeasure_push_lt nnn hf hslot hwf.stack_length
  | retPop n v he hsp hslot =>
    obtain ⟨w, hf⟩ := he.exists_fetch
    exact runMeasure_pop_lt hf hsp hslot hwf.sp_le_depth
  | idle hidle => exact absurd hs hidle
  | halt _ | badFetch _ _ | unknown _ _ _ _ | callFull _ _ _ | retEmpty _ _ => exact absurd ht (by simp)

/-! ### The end of a run -/

/-- A run ends one step after the number can fall no more. -/
theorem run_ends_within_measure (m : Nat) {s : State} (hwf : s.Wf) (hm : runMeasure s < m) :
    ∃ n t, n ≤ m ∧ Sys2Proof.core.run n s = .next t ∧ t.status ≠ .running := by
  induction m generalizing s with
  | zero => exact absurd hm (Nat.not_lt_zero _)
  | succ m ih =>
    by_cases hs : s.status = .running
    · obtain ⟨u, hu⟩ := stepFromWfAnswersNext s hwf
      obtain ⟨huwf, -, -⟩ := stepKeepsWf s u hwf hu
      by_cases hrun : u.status = .running
      · have hlt := step_runMeasure_lt hwf hs hu hrun
        obtain ⟨n, t, hn, ht, hend⟩ := ih huwf (by omega)
        exact ⟨n + 1, t, Nat.succ_le_succ hn, (run_of_step hu).trans ht, hend⟩
      · exact ⟨1, u, Nat.succ_pos m, run_of_step hu, hrun⟩
    · exact ⟨0, s, Nat.zero_le _, rfl, hs⟩

/-- The highest power is one term of the spec's bound. -/
theorem frameBase_pow_le_runBound (s : State) : frameBase s ^ (s.stackDepth + 1) ≤ runBound s :=
  List.le_sum_of_mem (List.mem_map.2 ⟨s.stackDepth, List.mem_range.2 (Nat.lt_succ_self _), rfl⟩)

/-- Two runs from one state end in one state: they go the same steps, and the end of the shorter one stays. -/
theorem runEndsIn_unique {s t u : State} (ht : RunEndsIn s t) (hu : RunEndsIn s u) : t = u := by
  obtain ⟨⟨m, hm⟩, hend⟩ := ht
  obtain ⟨⟨n, hn⟩, huend⟩ := hu
  induction m generalizing s n with
  | zero =>
    cases hm
    exact eq_of_next ((terminalStatesStay _ hend).2 n) hn
  | succ m ih =>
    cases n with
    | zero =>
      cases hn
      exact eq_of_next hm ((terminalStatesStay _ huend).2 (m + 1))
    | succ n =>
      obtain ⟨v, hv, hmrest⟩ := run_succ_cases hm
      obtain ⟨v', hv', hnrest⟩ := run_succ_cases hn
      obtain rfl := eq_of_next hv hv'
      exact ih hmrest n hnrest

/-! ### The statements -/

/-- Settles O16: the frames read as digits make a number that every step lowers, and that number is below the highest power
in the bound. -/
theorem everyRunEndsWithinTheBound : Obligations.EveryRunEndsWithinTheBound := by
  intro s hwf
  obtain ⟨n, t, hn, hrun, hend⟩ := run_ends_within_measure _ hwf (runMeasure_lt hwf)
  exact ⟨n, t, hn.trans (frameBase_pow_le_runBound s), hrun, hend⟩

/-- Settles O17: an end exists by the bound on the steps, and the step has one answer. -/
theorem runTransactionHasOneEnd : Obligations.RunTransactionHasOneEnd := by
  intro c hphase hlaunch
  obtain ⟨n, t, -, hrun, hend⟩ := everyRunEndsWithinTheBound c.machine hlaunch.wf
  have ht : RunEndsIn c.machine t := ⟨⟨n, hrun⟩, hend⟩
  refine ⟨{ machine := t, phase := .terminal }, ⟨hphase, rfl, ht⟩, ?_⟩
  rintro ⟨u, _⟩ ⟨-, rfl, hu⟩
  rw [runEndsIn_unique ht hu]

end Sys2Proof.Machine
end

section
/-! PROOF. The host's protocol of 70_reset_and_hazards.md. Each transaction's answer is said once; an accepted one resets,
writes what the host may write, or steps, and the invariants of a session are read off these three. -/

namespace Sys2Proof

/-! ### The legal parameters (00_scope.md R6) -/

theorem Config.ofParameters_of_legal {m n : Nat} (startPc : Word) (hm : m < 65536) (hlegal : 2 ≤ m ∧ 1 ≤ n) :
    Config.ofParameters m n startPc = some { memSize := ⟨m, hm⟩, stackDepth := n, startPc } := by
  rw [Config.ofParameters, dif_pos hm, if_pos hlegal]

theorem Config.ofParameters_of_illegal {m n : Nat} (startPc : Word) (h : m < 2 ∨ 65535 < m ∨ n = 0) :
    Config.ofParameters m n startPc = none := by
  unfold Config.ofParameters
  split_ifs with hm hlegal
  · omega
  · rfl
  · rfl

end Sys2Proof

namespace Sys2Proof.Machine

/-! ### Launch states (70_reset_and_hazards.md R208) -/

theorem State.launch_construct (c : Config) : (State.construct c).Launch where
  running := rfl
  no_fault := rfl
  sp_zero := rfl
  stack_zero := rfl
  memory_canonical := Memory.wf_nil
  memory_inside := by simp

/-- Settles O41: construction leaves everything zeroed, and a launch state has no live slot and no record that could break
an invariant. -/
theorem launchStatesMeetTheInvariants : Obligations.LaunchStatesMeetTheInvariants := by
  refine ⟨State.launch_construct, State.launch_construct _, fun s hs => ?_⟩
  have hnolive : ∀ i, ¬ i < s.sp := fun i => hs.sp_zero ▸ Nat.not_lt_zero i
  refine ⟨hs.wf, fun i v hi => absurd hi (hnolive i), ⟨?_, fun i v hi => absurd hi (hnolive i)⟩,
    faultRecordAgrees_of_fault_none hs.no_fault⟩
  exact le_max_of_le_right (le_max_right _ _)

/-! ### Consecutive bytes (70_reset_and_hazards.md R205) -/

/-- Writing bytes changes the memory and no other field. -/
theorem State.writeBytes_eq (s : State) (a : Nat) (bs : List Byte) :
    s.writeBytes a bs = { s with mem := (s.writeBytes a bs).mem } := by
  induction bs generalizing s a with
  | nil => rfl
  | cons b bs ih => exact ih (s.writeByte a b) (a + 1)

theorem State.writeBytes_inside (s : State) (a : Nat) (bs : List Byte) (h : ∀ c ∈ s.mem, c.1 < s.memSize.val) :
    ∀ c ∈ (s.writeBytes a bs).mem, c.1 < s.memSize.val := by
  induction bs generalizing s a with
  | nil => exact h
  | cons b bs ih => exact ih (s.writeByte a b) (a + 1) (s.writeByte_inside a b h)

/-- Bytes that fit in memory are read back at their addresses, and every other address reads as before. -/
theorem State.readByte_writeBytes {s : State} {o : Nat} {bs : List Byte} (hwf : s.mem.wf = true)
    (hfit : o + bs.length ≤ s.memSize.val) (a : Nat) :
    (s.writeBytes o bs).readByte a = if o ≤ a ∧ a < o + bs.length then bs[a - o]? else s.readByte a := by
  induction bs generalizing s o with
  | nil =>
    rw [if_neg (by simp)]
    rfl
  | cons b bs ih =>
    rw [List.length_cons] at hfit ⊢
    have hrest : (s.writeBytes o (b :: bs)).readByte a =
        if o + 1 ≤ a ∧ a < o + 1 + bs.length then bs[a - (o + 1)]? else (s.writeByte o b).readByte a :=
      ih (s := s.writeByte o b) (s.writeByte_wf o b hwf) (by rw [State.writeByte_memSize]; omega)
    rw [hrest]
    by_cases hao : a = o
    · subst hao
      rw [if_neg (by omega), if_pos (by omega), State.readByte_writeByte_same b hwf (by omega), Nat.sub_self,
        List.getElem?_cons_zero]
    · rw [State.readByte_writeByte_other s b hao]
      by_cases hin : o + 1 ≤ a ∧ a < o + 1 + bs.length
      · have hsucc : a - o = a - (o + 1) + 1 := by omega
        rw [if_pos hin, if_pos (by omega), hsucc, List.getElem?_cons_succ]
      · rw [if_neg hin, if_neg (by omega)]

/-! ### What each transaction answers -/

theorem Session.apply_reset_of_parameters {m n : Nat} {k : Config} (h : Config.ofParameters m n 0 = some k) (c : Session) :
    c.apply (.reset m n) = .next { machine := State.construct k, phase := .loading } := by
  simp only [Session.apply, hostReset, h]

theorem Session.apply_reset_of_no_parameters {m n : Nat} (h : Config.ofParameters m n 0 = none) (c : Session) :
    c.apply (.reset m n) = .refused .illegalConfiguration := by
  simp only [Session.apply, hostReset, h]

/-- Settles O46: Reset reads neither the machine nor the phase, and answers by the legal ranges alone. -/
theorem hostResetStartsOver : Obligations.HostResetStartsOver := by
  refine fun m n c => ⟨fun hlow hhigh hdepth => ?_, fun hillegal => ?_⟩
  · have hk := Config.ofParameters_of_legal 0 (Nat.lt_succ_of_le hhigh) ⟨hlow, hdepth⟩
    exact ⟨_, Session.apply_reset_of_parameters hk c, rfl, rfl, _, rfl, rfl, rfl⟩
  · exact Session.apply_reset_of_no_parameters (Config.ofParameters_of_illegal 0 hillegal) c

section Loading

variable {c : Session} (hphase : c.phase = .loading)
include hphase

theorem Session.apply_loadBytes_of_fit {o : Nat} {bs : List Byte} (hfit : o + bs.length ≤ c.machine.memSize.val) :
    c.apply (.loadBytes o bs) = .next { c with machine := c.machine.writeBytes o bs } := by
  simp only [Session.apply, hostLoadBytes, hphase, if_pos hfit]

theorem Session.apply_loadBytes_of_outside {o : Nat} {bs : List Byte} (hout : c.machine.memSize.val < o + bs.length) :
    c.apply (.loadBytes o bs) = .refused .loadOutsideMemory := by
  simp only [Session.apply, hostLoadBytes, hphase, if_neg (Nat.not_le.2 hout)]

theorem Session.apply_setReg_of_loading (i : RegIdx) (v : Byte) :
    c.apply (.setReg i v) = .next { c with machine := c.machine.setReg i v } := by
  simp only [Session.apply, hostSetReg, hphase]

theorem Session.apply_setStart_of_loading (a : Word) :
    c.apply (.setStart a) = .next { c with machine := c.machine.setPc a } := by
  simp only [Session.apply, hostSetStart, hphase]

end Loading

/-- Settles O47: the accepted load is the bytes written one after another, which changes the memory alone. -/
theorem loadBytesStoresExactly : Obligations.LoadBytesStoresExactly := by
  refine fun o bs c hphase hwf => ⟨fun hfit => ?_, Session.apply_loadBytes_of_outside hphase⟩
  refine ⟨_, Session.apply_loadBytes_of_fit hphase hfit, hphase, State.writeBytes_wf _ o bs hwf,
    State.readByte_writeBytes hwf hfit, ?_⟩
  change { c.machine.writeBytes o bs with mem := c.machine.mem } = c.machine
  rw [State.writeBytes_eq]

/-- Settles O48: each of the two is one write of the machine's own. -/
theorem setRegAndSetStartWriteOneThing : Obligations.SetRegAndSetStartWriteOneThing := by
  refine fun c hphase => ⟨fun i v => ?_, Session.apply_setStart_of_loading hphase⟩
  exact ⟨_, Session.apply_setReg_of_loading hphase i v, hphase, State.reg_setReg_same _ i v,
    fun r hr => State.reg_setReg_other _ i r v hr, rfl⟩

/-- Settles O49: in the phases running and terminal the three writes are refused, in terminal the step too. -/
theorem hostWritesOnlyWhileLoading : Obligations.HostWritesOnlyWhileLoading := by
  intro c hphase
  cases hp : c.phase with
  | loading => exact absurd hp hphase
  | running => simp [Session.apply, hostLoadBytes, hostSetReg, hostSetStart, hp]
  | terminal => simp [Session.apply, hostLoadBytes, hostSetReg, hostSetStart, hostStep, hp]

/-! ### What an accepted transaction does (70_reset_and_hazards.md R204) -/

/-- `t` is `s` after the host has written registers, bytes of memory or the pc: all that it may write. -/
structure State.HostWrites (s t : State) : Prop where
  frame : t = { s with mem := t.mem, regs := t.regs, pc := t.pc }
  canonical : s.mem.wf = true → t.mem.wf = true
  inside : (∀ c ∈ s.mem, c.1 < s.memSize.val) → ∀ c ∈ t.mem, c.1 < s.memSize.val

theorem State.hostWrites_setReg (s : State) (i : RegIdx) (v : Byte) : s.HostWrites (s.setReg i v) :=
  ⟨rfl, id, id⟩

theorem State.hostWrites_setPc (s : State) (a : Word) : s.HostWrites (s.setPc a) :=
  ⟨rfl, id, id⟩

theorem State.hostWrites_writeBytes (s : State) (a : Nat) (bs : List Byte) : s.HostWrites (s.writeBytes a bs) where
  frame := by rw [State.writeBytes_eq]
  canonical := s.writeBytes_wf a bs
  inside := s.writeBytes_inside a bs

theorem State.HostWrites.status_eq {s t : State} (h : s.HostWrites t) : t.status = s.status := by
  rw [h.frame]

theorem State.HostWrites.wf {s t : State} (h : s.HostWrites t) (hs : s.Wf) : t.Wf := by
  obtain ⟨hframe, hcanonical, hinside⟩ := h
  rw [hframe]
  exact ⟨hcanonical hs.memory_canonical, hinside hs.memory_inside, hs.stack_length, hs.sp_le_depth, hs.fault_iff_faulted⟩

theorem State.HostWrites.launch {s t : State} (h : s.HostWrites t) (hs : s.Launch) : t.Launch := by
  obtain ⟨hframe, hcanonical, hinside⟩ := h
  rw [hframe]
  exact ⟨hs.running, hs.no_fault, hs.sp_zero, hs.stack_zero, hcanonical hs.memory_canonical, hinside hs.memory_inside⟩

/-- The three kinds of accepted transactions. -/
inductive Session.Moves (c : Session) : Session → Prop
  | resets (k : Config) : Session.Moves c { machine := State.construct k, phase := .loading }
  | writes (s : State) (hphase : c.phase = .loading) (hs : c.machine.HostWrites s) :
      Session.Moves c { c with machine := s }
  | steps (s : State) (hs : step c.machine = .next s) : Session.Moves c { machine := s, phase := phaseAfterStep s }

theorem Session.moves_of_apply {t : Transaction} {c d : Session} (h : c.apply t = .next d) : c.Moves d := by
  rcases Session.apply_cases h with ⟨m, n, k, -, -, rfl⟩ | ⟨o, bs, -, hphase, -, rfl⟩ | ⟨i, v, -, hphase, rfl⟩ |
    ⟨a, -, hphase, rfl⟩ | ⟨u, -, -, hu, rfl⟩
  · exact .resets k
  · exact .writes _ hphase (State.hostWrites_writeBytes _ o bs)
  · exact .writes _ hphase (State.hostWrites_setReg _ i v)
  · exact .writes _ hphase (State.hostWrites_setPc _ a)
  · exact .steps u hu

theorem phaseAfterStep_ne_loading (s : State) : phaseAfterStep s ≠ .loading := by
  cases hs : s.status <;> simp [phaseAfterStep, hs]

theorem phaseAfterStep_eq_terminal_iff (s : State) : phaseAfterStep s = .terminal ↔ s.status ≠ .running := by
  cases hs : s.status <;> simp [phaseAfterStep, hs]

/-! ### The invariants of a session -/

/-- Reset leaves a launch state, the host's writes keep one, and a step leaves LOADING. -/
theorem Session.Moves.keeps_launch {c d : Session} (h : c.Moves d) (hc : c.phase = .loading → c.machine.Launch)
    (hd : d.phase = .loading) : d.machine.Launch := by
  cases h with
  | resets k => exact State.launch_construct k
  | writes s hphase hs => exact hs.launch (hc hphase)
  | steps s hs => exact absurd hd (phaseAfterStep_ne_loading s)

/-- Settles O50: by induction on the transactions, each of them a reset, a write or a step. -/
theorem loadingMachinesAreLaunchStates : Obligations.LoadingMachinesAreLaunchStates := by
  intro ts c d h
  induction h with
  | nil c => exact id
  | cons happly _ ih => exact fun hc => ih ((Session.moves_of_apply happly).keeps_launch hc)

/-- Settles O51: a reset and the host's writes leave the status Running or as it was, and a step sets the phase by the
status. -/
theorem transactionsKeepWfAndPhase : Obligations.TransactionsKeepWfAndPhase := by
  intro t c d hwf hphase h
  cases Session.moves_of_apply h with
  | resets k => exact ⟨(State.launch_construct k).wf, by simp⟩
  | writes s _ hs => exact ⟨hs.wf hwf, hs.status_eq ▸ hphase⟩
  | steps s hs =>
    obtain ⟨hswf, -, -⟩ := stepKeepsWf c.machine s hwf hs
    exact ⟨hswf, phaseAfterStep_eq_terminal_iff s⟩

end Sys2Proof.Machine
end

section
/-! PROOF. The words of 95_test_vectors.md, settled by the laws of 30_encoding.md: an instruction's word is its encoding, and
an unknown word matches no row of the opcode table. -/

namespace Sys2Proof

/-- Settles O6: six of the words are encodings (30_encoding.md R85), and no row of the opcode table matches the other four
(R90). -/
theorem specWordsDecode : Obligations.SpecWordsDecode := by
  simp only [Obligations.SpecWordsDecode, decodeWord_eq_some_iff, decodeWord_eq_none_iff]
  refine ⟨rfl, rfl, rfl, rfl, rfl, rfl, ?_, ?_, ?_, ?_⟩ <;> decide

end Sys2Proof
end
